-- ==== Sys2Proof/Word.lean ====
section
/-! DEFINITION. The two units of data of the CHS block: the byte, of every operand and result sequence, and the bit, of codec arithmetic (spec R10, R43). -/

namespace Sys2Proof

/-- An 8-bit value (R10). -/
abbrev Byte := BitVec 8

/-- A byte sequence, indexed from 0; its length is part of its value (R10, R19). -/
abbrev Bytes := List Byte

/-- A bit buffer (R35, R36): the bit at index `i` of the list is the bit at index `i` of the buffer, and the
list's length is the buffer's length, 1 + the highest index ever written. -/
abbrev BitBuffer := List Bool

end Sys2Proof
end

