-- ==== Sys2Proof/Syntax.lean ====
section
/-! DEFINITION. The command set: one constructor per row of spec/opcode_table.json (R56). -/

namespace Sys2Proof

/-- The 11 commands of R56. No command has an operand field: the one operand of every command is IN (R57). -/
inductive Instr where
  /-- 0x00 FRM_WRAP (R72). -/
  | frmWrap
  /-- 0x01 FRM_ISCOMPLETE (R74). -/
  | frmIsComplete
  /-- 0x02 FRM_UNWRAP (R76). -/
  | frmUnwrap
  /-- 0x03 HAM_ENC (R85). -/
  | hamEnc
  /-- 0x04 HAM_DEC (R93). -/
  | hamDec
  /-- 0x05 HAM_PROC (R113). -/
  | hamProc
  /-- 0x06 HAM_SEND (R118). -/
  | hamSend
  /-- 0x0B CRC_ENC (R101). -/
  | crcEnc
  /-- 0x0C CRC_DEC (R106). -/
  | crcDec
  /-- 0x0D CRC_PROC (R114). -/
  | crcProc
  /-- 0x0E CRC_SEND (R119). -/
  | crcSend
deriving DecidableEq, Repr

end Sys2Proof
end

