-- ==== Sys2Proof/WellFormed.lean ====
section
/-! DEFINITION. When a command word is well-formed: the three checks of the command word format (R54, R55), each
with the name under which the decoder rejects a word that fails it. -/

namespace Sys2Proof

/-- Why a command word is illegal (R58). -/
inductive IllegalWord where
  /-- RES, bits [7:4], is not 0b0000. -/
  | reservedBits
  /-- OP is 7, which names no operation. -/
  | noOperation
  /-- C, bit [3], is 1 with a framer OP (0, 1 or 2). -/
  | codecBitOnFramer
deriving DecidableEq, Repr

/-- OP, bits [2:0] (R54). -/
def opField (w : Byte) : Nat := w.toNat % 8
/-- C, bit [3] (R54). -/
def codecBit (w : Byte) : Bool := w.getLsbD 3
/-- RES, bits [7:4] (R54). -/
def resField (w : Byte) : Nat := w.toNat / 16

/-- The checks of R54 and R55. Their order, from RES down, is the model's (DESIGN CHOICE, safe, log entry 13): the
outcome of an illegal word does not depend on it. -/
def checkWord (w : Byte) : Option IllegalWord :=
  if resField w ≠ 0 then some .reservedBits
  else if opField w = 7 then some .noOperation
  else if codecBit w = true ∧ opField w ≤ 2 then some .codecBitOnFramer
  else none

/-- A command word is well-formed when it passes every check. -/
def wordWellFormed (w : Byte) : Bool := (checkWord w).isNone

/-- A command carries no operand (R57), so every term of `Instr` is well-formed. -/
def Instr.wellFormed (_ : Instr) : Bool := true

end Sys2Proof
end

