-- ==== Sys2Proof/Decode.lean ====
section
/-! DEFINITION. The decoder of command words, total on all 256 of them, and after it the encoder and the
assembler's mnemonics (R54 to R60, R66). -/

namespace Sys2Proof

/-- The operation selected by OP and C of a word whose other checks have passed (R55, R70). -/
def selectInstr (op : Nat) (c : Bool) : Option Instr :=
  match op, c with
  | 0, false => some .frmWrap
  | 1, false => some .frmIsComplete
  | 2, false => some .frmUnwrap
  | 3, false => some .hamEnc
  | 4, false => some .hamDec
  | 5, false => some .hamProc
  | 6, false => some .hamSend
  | 3, true => some .crcEnc
  | 4, true => some .crcDec
  | 5, true => some .crcProc
  | 6, true => some .crcSend
  | _, _ => none

/-- Decodes one command word, or rejects it by the name of the check it fails (R54, R58). A word that passes
the checks always selects an operation; the last line's rejection is there for totality only. -/
def decodeWord (w : Byte) : Except IllegalWord Instr :=
  match checkWord w with
  | some e => .error e
  | none =>
    match selectInstr (opField w) (codecBit w) with
    | some i => .ok i
    | none => .error .noOperation

/-- Every command of a sequence of command bytes, in order, or the first rejection: a command word is exactly one
byte (R60). -/
def decodeAll : Bytes → Except IllegalWord (List Instr)
  | [] => .ok []
  | w :: rest =>
    match decodeWord w with
    | .error e => .error e
    | .ok i => (decodeAll rest).map (i :: ·)

/-- The decoder on a row of spec/opcode_table.json: the word's bits, bit 0 the least significant. Every row has
8 bits; a longer word is no command. -/
def decodeTableWord (nbits w : Nat) : Option Instr :=
  if nbits ≤ 8 ∧ w < 256 then
    match decodeWord (BitVec.ofNat 8 w) with
    | .ok i => some i
    | .error _ => none
  else none

/-- The command word of each command, from the opcode map (R56). -/
def encode : Instr → Byte
  | .frmWrap => 0x00#8
  | .frmIsComplete => 0x01#8
  | .frmUnwrap => 0x02#8
  | .hamEnc => 0x03#8
  | .hamDec => 0x04#8
  | .hamProc => 0x05#8
  | .hamSend => 0x06#8
  | .crcEnc => 0x0B#8
  | .crcDec => 0x0C#8
  | .crcProc => 0x0D#8
  | .crcSend => 0x0E#8

/-- The mnemonic of each command, in upper case (R66). -/
def mnemonic : Instr → String
  | .frmWrap => "FRM_WRAP"
  | .frmIsComplete => "FRM_ISCOMPLETE"
  | .frmUnwrap => "FRM_UNWRAP"
  | .hamEnc => "HAM_ENC"
  | .hamDec => "HAM_DEC"
  | .hamProc => "HAM_PROC"
  | .hamSend => "HAM_SEND"
  | .crcEnc => "CRC_ENC"
  | .crcDec => "CRC_DEC"
  | .crcProc => "CRC_PROC"
  | .crcSend => "CRC_SEND"

/-- All commands, in the order of the opcode map. -/
def allInstrs : List Instr :=
  [.frmWrap, .frmIsComplete, .frmUnwrap, .hamEnc, .hamDec, .hamProc, .hamSend, .crcEnc, .crcDec, .crcProc, .crcSend]

/-- The assembler: a line that is exactly a mnemonic becomes its one byte; any other spelling is no command (R66). -/
def assemble (line : String) : Option Byte :=
  (allInstrs.find? fun i => mnemonic i == line).map encode

end Sys2Proof
end

