-- ==== Sys2Proof/Config.lean ====
section
/-! DEFINITION. What is fixed for a block: the hardwired constants (R6, R28) and the two implementation
parameters no source fixes, BIT_ORDER and BUF_CAP (R7). -/

namespace Sys2Proof

/-- START_TAG (R6). -/
def START_TAG : Byte := 0x7B#8
/-- STOP_TAG (R6). -/
def STOP_TAG : Byte := 0x7D#8
/-- ESC_TAG (R6). -/
def ESC_TAG : Byte := 0x5C#8
/-- MAX_PAYLOAD, the sender's chunk size in bytes (R6). -/
def MAX_PAYLOAD : Nat := 8
/-- CRC_GEN, the fixed modulo-2 divisor (R6). -/
def CRC_GEN : BitVec 16 := 0xA6BC#16
/-- CRC_L, the generator's length in bits (R6). -/
def CRC_L : Nat := 16

/-- BIT_ORDER (R7): which bit of a byte stands at the lower buffer index. -/
inductive BitOrder where
  /-- Index `8k + j` holds the bit of weight `2^j` of byte `k`. -/
  | lsbFirst
  /-- Index `8k + j` holds the bit of weight `2^(7-j)` of byte `k`. -/
  | msbFirst
deriving DecidableEq, Repr

/-- The codec a command runs (the codec bit of R54, CHS's "strategy value"). -/
inductive Codec where
  | hamming
  | crc
deriving DecidableEq, Repr

/-- The parameters of R7, fixed for a block's lifetime (R139). The machine carries them, so that a claim about
every state is a claim about every value of them (DESIGN CHOICE, safe, log entry 2). -/
structure Params where
  bitOrder : BitOrder
  bufCap : Nat
deriving DecidableEq, Repr

/-- The range R7 gives BUF_CAP. -/
def Params.wf (p : Params) : Bool := decide (22 ≤ p.bufCap ∧ p.bufCap ≤ 4095)

/-- The parameters of `State.reset`: BIT_ORDER at the spec's default (R7) and BUF_CAP at the top of its range
(DESIGN CHOICE, unsafe, log entry 2: R7 gives BUF_CAP no default). -/
def Params.default : Params := { bitOrder := .lsbFirst, bufCap := 4095 }

end Sys2Proof
end

