-- ==== Sys2Proof/Machine/State.lean ====
section
/-! DEFINITION. The state of the CHS block (R15, R19), with the host's action list beside it (R17, R67); the
reasons a step stops; the state after reset (R31). -/

namespace Sys2Proof.Machine

/-- The codes of STATUS (R22). The codes 0x07 and higher never occur, so they have no constructor. -/
inductive Status where
  | idle
  | ok
  | parityMismatch
  | missingStartTag
  | missingStopTag
  | checksumMismatch
  | illegalCommand
deriving DecidableEq, Repr

/-- The two failures of Unwrap (R75). -/
inductive FrameFailure where
  | missingStartTag
  | missingStopTag
deriving DecidableEq, Repr

/-- The registers and the port of R19, as a host names them in a read. -/
inductive HostReg where
  | IN
  | CMD
  | STATUS
  | OUT
  | FC
  | SYN
  | REM
  | TX
deriving DecidableEq, Repr

/-- What a host read answers, each register at its exact width (R19). -/
inductive HostValue where
  /-- IN, OUT. -/
  | seq (x : Bytes)
  /-- STATUS. -/
  | status (w : BitVec 8)
  /-- FC. -/
  | flag (b : Bool)
  /-- SYN. -/
  | syn (v : BitVec 16)
  /-- REM. -/
  | rem (v : BitVec 15)
deriving DecidableEq, Repr

/-- One action of the host's action list (R17, R67). A mnemonic line is `cmd` of its command word (R66, R67). -/
inductive HostAction where
  /-- A write of the command word `w` to CMD. -/
  | cmd (w : Byte)
  /-- `IN [b0, b1, ...]`. -/
  | inBytes (x : Bytes)
  /-- `IN OUT`. -/
  | inOut
  /-- `IN TX[i]`. -/
  | inTX (i : Nat)
  /-- `IN FLIP j`. -/
  | inFlip (j : Nat)
  /-- `RESET`. -/
  | reset
  /-- A host read of a register (R43, R147). -/
  | read (r : HostReg)
deriving DecidableEq, Repr

/-- The model faults of R147. Each is safe: the spec gives the action no meaning, and says that the model stops
(treatment "fault" of 93_implementation_defined.md, for U7 and U9). -/
inductive Fault where
  /-- Raised by every command (R31), by `IN FLIP j` (R67) and by a read of IN (92_eei_decisions.md D21) while IN has
  not been written since reset and so holds no value: "a model faults them" (R31). Safe. -/
  | inNotWritten
  /-- Raised by a read of OUT, FC, SYN or REM, and by `IN OUT`, while STATUS = IDLE: "a model
  faults them (it must not read zero or any other value)" (R31; R67 for `IN OUT`). Safe. -/
  | resultNotWritten
  /-- Raised by `IN TX[i]` when TX has no `i`-th frame (R67). Safe. -/
  | noSuchFrame
  /-- Raised by `IN FLIP j` when `j` is no stream position of IN (R67). Safe. -/
  | flipOutOfRange
  /-- Raised by a read of CMD, which has no readable value (R21), or of TX, to which the host has no access
  (R19). Safe. -/
  | notReadable
deriving DecidableEq, Repr

/-- The refusals of R146: no source says what the action does. Each is safe. -/
inductive Refusal where
  /-- An instruction with no meaning yet, by its mnemonic. No arm raises it. Safe. -/
  | notModelled (mnemonic : String)
  /-- Raised by a host write of IN with more than BUF_CAP bytes (R45). Safe. -/
  | inTooLong
  /-- Raised by a command whose rule would write OUT with more than BUF_CAP bytes (R45). Safe. -/
  | outTooLong
deriving DecidableEq, Repr

/-- The architectural state of R15, plus the parameters of R7 and the host's side of a run. -/
structure State where
  /-- BIT_ORDER and BUF_CAP (R7), which nothing changes (R139). -/
  params : Params
  /-- IN, the operand (R20). -/
  IN : Bytes
  /-- IN has been written since reset (R31, R147). -/
  inWritten : Bool
  /-- CMD, the last command word written (R21). Write-only: no command and no host read gives it back (DESIGN
  CHOICE, unsafe, log entry 3). -/
  CMD : Byte
  /-- STATUS (R22). -/
  STATUS : Status
  /-- OUT (R23). -/
  OUT : Bytes
  /-- FC (R24). -/
  FC : Bool
  /-- SYN (R25). -/
  SYN : BitVec 16
  /-- REM (R26). -/
  REM : BitVec 15
  /-- TX, the frames handed over since reset, oldest first (R27). -/
  TX : List Bytes
  /-- The host's action list (R67): no part of the block (DESIGN CHOICE, safe, log entry 11). -/
  program : List HostAction
  /-- The index of the next action (R17): no part of the block. -/
  pos : Nat
deriving DecidableEq, Repr

/-- The block after reset with the parameters `p` and nothing to do (R31, R138). STATUS and TX are the spec's;
IN, OUT, FC, SYN and REM "hold no value": the values here are placeholders no read answers (DESIGN CHOICE, unsafe,
log entry 1). -/
def State.resetWith (p : Params) : State :=
  { params := p, IN := [], inWritten := false, CMD := 0#8, STATUS := .idle, OUT := [], FC := false, SYN := 0#16,
    REM := 0#15, TX := [], program := [], pos := 0 }

/-- The block after reset (R31) with the parameters of log entry 2. -/
def State.reset : State := State.resetWith Params.default

end Sys2Proof.Machine
end

