-- ==== Sys2Proof/Machine/Ops.lean ====
section
/-! DEFINITION. The shared operations over the registers: the position in the action list, the write of IN and of
CMD, a command's effect and its one commit, and reset. The block has no traps (R122): a failure is an effect like
any other, made by `fail`, and nothing is entered or returned from (R131, R132). -/

namespace Sys2Proof.Machine

/-- What a command's rule sets: the result registers, and the frames it hands to `transmit`, in order. A field a
rule does not name has the default of R30. -/
structure Effect where
  STATUS : Status
  OUT : Bytes := []
  FC : Bool := false
  SYN : BitVec 16 := 0#16
  REM : BitVec 15 := 0#15
  frames : List Bytes := []
deriving DecidableEq, Repr

/-- `finish(st)`: STATUS is `st`, every other result register has its default (R11, R30). -/
def finish (st : Status) : Effect := { STATUS := st }

/-- `fail(st)`: `finish(st)` with OUT empty, "never a best-effort payload" (R11, R23). -/
def fail (st : Status) : Effect := { finish st with OUT := [] }

/-- The STATUS code a framing failure is reported with (R76, R123). -/
def FrameFailure.status : FrameFailure → Status
  | .missingStartTag => .missingStartTag
  | .missingStopTag => .missingStopTag

/-- Writes every result register and appends the frames, all together (R27, R29, R30). Nothing else changes. -/
def State.applyEffect (s : State) (e : Effect) : State :=
  { s with STATUS := e.STATUS, OUT := e.OUT, FC := e.FC, SYN := e.SYN, REM := e.REM, TX := s.TX ++ e.frames }

/-- The completion of a command: its effect, unless OUT would be longer than BUF_CAP, which is refused (R45). -/
def State.commit (s : State) (e : Effect) : Host.Outcome State Fault Refusal :=
  if e.OUT.length ≤ s.params.bufCap then .next (s.applyEffect e) else .refused .outTooLong

/-- Runs a command: its rule is a function of the parameters and of IN alone (R18), and a command started before
IN was written since reset is a fault (R31). -/
def runCommand (rule : Params → Bytes → Effect) (s : State) : Host.Outcome State Fault Refusal :=
  if s.inWritten then s.commit (rule s.params s.IN) else .fault .inNotWritten

/-- The ILLEGAL_COMMAND outcome (R127). No unit runs and IN is not read, so it needs no operand (DEDUCED,
unsafe, log entry 5). -/
def execIllegal (s : State) : Host.Outcome State Fault Refusal := s.commit (fail .illegalCommand)

/-- Writes IN (R20). -/
def State.writeIN (s : State) (x : Bytes) : State := { s with IN := x, inWritten := true }

/-- Writes CMD (R21). -/
def State.writeCMD (s : State) (w : Byte) : State := { s with CMD := w }

/-- The next action of the host's action list; `none` after the last (R17, R149). -/
def State.nextAction (s : State) : Option HostAction := s.program[s.pos]?

/-- Moves to the following action (R17). -/
def State.advance (s : State) : State := { s with pos := s.pos + 1 }

/-- The reset input (R138): the block's registers and TX as after reset. The parameters (R139) and the host's
action list are no part of what it resets. -/
def State.resetBlock (s : State) : State :=
  { State.resetWith s.params with program := s.program, pos := s.pos }

/-- Puts the action `a` at index `k` of an action list, in place of the action there; a shorter list is filled up
with `a`. -/
def placeAction (a : HostAction) : List HostAction → Nat → List HostAction
  | [], 0 => [a]
  | [], k + 1 => a :: placeAction a [] k
  | _ :: rest, 0 => a :: rest
  | b :: rest, k + 1 => b :: placeAction a rest k

/-- The state in which the host's next action writes the command word `w`, its duty to write IN before the first
command done (R134, R140): an IN not written since reset counts as written with its content
(DESIGN CHOICE, unsafe, log entry 6). -/
def State.placeCommand (s : State) (w : Byte) : State :=
  { s with program := placeAction (.cmd w) s.program s.pos, inWritten := true }

end Sys2Proof.Machine
end

