-- ==== Sys2Proof/Machine/Operands.lean ====
section
/-! DEFINITION. The bit buffer and its conversions (R35 to R38), the operand model of both codecs, and the flip
of one stream bit (R14). -/

namespace Sys2Proof.Machine

/-- `BBRead(b, i)`: the bit at index `i`, and 0 if it was never written (R35). -/
def bbRead (b : BitBuffer) (i : Nat) : Bool := b.getD i false

/-- `BBWrite(b, i, v)`: sets index `i`, growing the buffer to length `i + 1` with zeros where needed (R36). -/
def bbWrite (b : BitBuffer) (i : Nat) (v : Bool) : BitBuffer :=
  if i < b.length then b.set i v else b ++ List.replicate (i - b.length) false ++ [v]

/-- The weight exponent of bit number `j` of a byte (R37, R38). -/
def bitWeight : BitOrder → Nat → Nat
  | .lsbFirst, j => j
  | .msbFirst, j => 7 - j

/-- The eight bits of a byte in buffer order (R37). -/
def byteBits (o : BitOrder) (b : Byte) : BitBuffer := (List.range 8).map fun j => b.getLsbD (bitWeight o j)

/-- `BitsOf(s)` (R37). -/
def bitsOf (o : BitOrder) (s : Bytes) : BitBuffer := s.flatMap (byteBits o)

/-- The number with bit `bit j` at weight `2^(weight j)`, for `j` below `n`. -/
def weightedSum (n : Nat) (weight : Nat → Nat) (bit : Nat → Bool) : Nat :=
  ((List.range n).map fun j => if bit j then 2 ^ weight j else 0).sum

/-- The byte whose eight bits in buffer order are `bit 0`, ..., `bit 7` (R38). -/
def packByte (o : BitOrder) (bit : Nat → Bool) : Byte := BitVec.ofNat 8 (weightedSum 8 (bitWeight o) bit)

/-- `BytesOf(b)` (R38): ceil(len(b)/8) bytes, the padding bits 0. -/
def bytesOf (o : BitOrder) (b : BitBuffer) : Bytes :=
  (List.range ((b.length + 7) / 8)).map fun k => packByte o fun j => bbRead b (8 * k + j)

/-- The byte sequence `s` with its stream bit of index `t` inverted (R14: stream position `t + 1`). -/
def flipStreamBit (o : BitOrder) (s : Bytes) (t : Nat) : Bytes :=
  bytesOf o (bbWrite (bitsOf o s) t (!bbRead (bitsOf o s) t))

end Sys2Proof.Machine
end

