-- ==== Sys2Proof/Machine/Flags.lean ====
section
/-! DEFINITION. What the result registers hold as bits: the STATUS codes (R22), SYN as the list of mismatch
positions (R25), and the packing of REM (R26). -/

namespace Sys2Proof.Machine

/-- The code of STATUS, STATUS[7:3] hardwired 0 (R22). -/
def Status.code : Status → BitVec 8
  | .idle => 0x00#8
  | .ok => 0x01#8
  | .parityMismatch => 0x02#8
  | .missingStartTag => 0x03#8
  | .missingStopTag => 0x04#8
  | .checksumMismatch => 0x05#8
  | .illegalCommand => 0x06#8

/-- The failure codes of R22: OUT holds [] with each of them. -/
def Status.isFailure : Status → Bool
  | .idle | .ok | .parityMismatch => false
  | .missingStartTag | .missingStopTag | .checksumMismatch | .illegalCommand => true

/-- The mismatch positions SYN lists: the powers of two `2^t` with SYN[t] = 1, `t` increasing (R25). -/
def synPositions (syn : BitVec 16) : List Nat := ((List.range 16).filter fun t => syn.getLsbD t).map (2 ^ ·)

/-- SYN for the syndrome `s`: zext_16(s) (R93, R113). A syndrome that does not fit in 16 bits, which needs an IN
longer than R7 allows, leaves its low 16 bits (DESIGN CHOICE, unsafe, log entry 14). -/
def packSyn (s : Nat) : BitVec 16 := BitVec.ofNat 16 s

/-- REM for the remainder sequence `r`: REM[14 - j] = r[j] (R26, R99). -/
def packRem (r : BitBuffer) : BitVec 15 := BitVec.ofNat 15 (weightedSum 15 (14 - ·) (bbRead r))

end Sys2Proof.Machine
end

