-- ==== Sys2Proof/Machine/Directives.lean ====
section
/-! DEFINITION. The host's directives (R67), which are host writes and no commands, and its register reads (R19,
R31, R43). -/

namespace Sys2Proof.Machine

/-- A host write of IN, also by a directive that copies into it (log entry 11); one with more than BUF_CAP bytes is
refused (R45). -/
def hostWriteIN (x : Bytes) (s : State) : Host.Outcome State Fault Refusal :=
  if x.length ≤ s.params.bufCap then .next (s.writeIN x) else .refused .inTooLong

/-- OUT, FC, SYN and REM have values: some command has completed since reset (R30, R31). -/
def State.resultsWritten (s : State) : Bool := s.STATUS != .idle

/-- `IN OUT`; when OUT has no value it has no meaning, and is a fault (R67). -/
def hostInOut (s : State) : Host.Outcome State Fault Refusal :=
  if s.resultsWritten then hostWriteIN s.OUT s else .fault .resultNotWritten

/-- `IN TX[i]` (R67). -/
def hostInTX (i : Nat) (s : State) : Host.Outcome State Fault Refusal :=
  match s.TX[i]? with
  | some f => hostWriteIN f s
  | none => .fault .noSuchFrame

/-- `IN FLIP j` (R67): stream position `j`, counted from 1 (R14). Position 0 is none
(DEDUCED, safe, log entry 8); without a value in IN there is nothing to flip (R67). -/
def hostInFlip (j : Nat) (s : State) : Host.Outcome State Fault Refusal :=
  if s.inWritten = false then .fault .inNotWritten
  else if j = 0 ∨ 8 * s.IN.length < j then .fault .flipOutOfRange
  else hostWriteIN (flipStreamBit s.params.bitOrder s.IN (j - 1)) s

/-- `RESET` (R67, R138). -/
def hostReset (s : State) : Host.Outcome State Fault Refusal := .next s.resetBlock

/-- What a host read of a register answers (R19 to R26), or the fault it is: of a register without a value (R31,
R147, 92_eei_decisions.md D21), or of one the host cannot read (log entry 4). -/
def hostValue (r : HostReg) (s : State) : Except Fault HostValue :=
  match r with
  | .IN => if s.inWritten then .ok (.seq s.IN) else .error .inNotWritten
  | .CMD => .error .notReadable
  | .STATUS => .ok (.status s.STATUS.code)
  | .OUT => if s.resultsWritten then .ok (.seq s.OUT) else .error .resultNotWritten
  | .FC => if s.resultsWritten then .ok (.flag s.FC) else .error .resultNotWritten
  | .SYN => if s.resultsWritten then .ok (.syn s.SYN) else .error .resultNotWritten
  | .REM => if s.resultsWritten then .ok (.rem s.REM) else .error .resultNotWritten
  | .TX => .error .notReadable

/-- A host read as an action of a run: it has no side effect (R43) (DEDUCED, safe, log entry 4). -/
def hostRead (r : HostReg) (s : State) : Host.Outcome State Fault Refusal :=
  match hostValue r s with
  | .ok _ => .next s
  | .error e => .fault e

end Sys2Proof.Machine
end

