-- ==== Sys2Proof/Machine/Crc.lean ====
section
/-! DEFINITION. The CRC Codec (R96 to R106): the modulo-2 division, encode with the trimmed checksum, decode, and
the two commands that run them. -/

namespace Sys2Proof.Machine

/-- G, the generator's bits, most significant first: G[j] = bit (15 - j) of CRC_GEN (R65). -/
def crcGenBits : BitBuffer := (List.range CRC_L).map fun j => CRC_GEN.getLsbD (15 - j)

/-- XORs the bits `g` into the front of the buffer. -/
def xorFront : BitBuffer → BitBuffer → BitBuffer
  | b :: bs, g :: gs => (b ^^ g) :: xorFront bs gs
  | bs, [] => bs
  | [], _ => []

/-- `n` rounds of the division (R97), the buffer taken from index `idx` on: where the window's leading bit is 1
the generator is XORed into the window, and `idx` moves on by one. The bit moved past is 0 and is dropped (DEDUCED,
unsafe, log entry 12). -/
def crcRounds : Nat → BitBuffer → BitBuffer
  | 0, w => w
  | _ + 1, [] => []
  | n + 1, b :: rest => crcRounds n (if b then xorFront rest crcGenBits.tail else rest)

/-- `CrcDivide(a)`: the remainder's CRC_L - 1 = 15 bits (R97). The window lies inside the buffer of length
len(a) + 15 for len(a) rounds, and 15 bits are left. -/
def crcDivide (a : BitBuffer) : BitBuffer := crcRounds a.length (a ++ List.replicate (CRC_L - 1) false)

/-- `CrcChecksum(x)` (R100): the remainder's two bytes, the second left out when it is zero. -/
def crcChecksum (o : BitOrder) (x : Bytes) : Bytes :=
  let rb := bytesOf o (crcDivide (bitsOf o x))
  if rb.getD 1 0#8 = 0#8 then [rb.getD 0 0#8] else [rb.getD 0 0#8, rb.getD 1 0#8]

/-- The payload with its checksum (R101). -/
def crcEncode (o : BitOrder) (x : Bytes) : Bytes := x ++ crcChecksum o x

/-- `CrcAccept(y)`: whether the remainder is all zero, and the remainder (R103). -/
def crcAccept (o : BitOrder) (y : Bytes) : Bool × BitBuffer :=
  let r := crcDivide (bitsOf o y)
  (r.all (! ·), r)

/-- The last three stream bits of a byte are zero (R104). -/
def lastThreeZero : BitOrder → Byte → Bool
  | .lsbFirst, b => (b &&& 0xE0#8) == 0#8
  | .msbFirst, b => (b &&& 0x07#8) == 0#8

/-- `CrcCount(y)`: the number of checksum bytes of an accepted `y` (R104). -/
def crcCount (o : BitOrder) (y : Bytes) : Nat :=
  let T := y.length
  let b := y.getD (T - 1) 0#8
  if 2 ≤ T ∧ b ≠ 0#8 ∧ lastThreeZero o b = true then 2 else 1

/-- `CrcDecode(y)`: the payload, or `none` for CHECKSUM_MISMATCH, and the remainder (R105). -/
def crcDecode (o : BitOrder) (y : Bytes) : Option Bytes × BitBuffer :=
  let (ok, r) := crcAccept o y
  if ok = false then (none, r)
  else if y.length = 0 then (none, r)
  else (some (y.take (y.length - crcCount o y)), r)

/-- CRC_ENC's rule (R101). -/
def crcEncRule (p : Params) (x : Bytes) : Effect :=
  { finish .ok with OUT := crcEncode p.bitOrder x, REM := packRem (crcDivide (bitsOf p.bitOrder x)) }

/-- CRC_DEC's rule (R106), which CRC_PROC runs on an unwrapped frame (R114). -/
def crcDecRule (p : Params) (y : Bytes) : Effect :=
  match crcDecode p.bitOrder y with
  | (none, r) => { fail .checksumMismatch with REM := packRem r }
  | (some payload, r) => { finish .ok with OUT := payload, REM := packRem r }

/-- CRC_ENC (R101). -/
def execCrcEnc (s : State) : Host.Outcome State Fault Refusal := runCommand crcEncRule s

/-- CRC_DEC (R106). -/
def execCrcDec (s : State) : Host.Outcome State Fault Refusal := runCommand crcDecRule s

end Sys2Proof.Machine
end

