-- ==== Sys2Proof/Machine/Framer.lean ====
section
/-! DEFINITION. The Framer (R71 to R77): wrap, isFrameComplete, unwrap, and the three commands that run them. -/

namespace Sys2Proof.Machine

/-- `isTag(b)` (R13). -/
def isTag (b : Byte) : Bool := b == START_TAG || b == STOP_TAG || b == ESC_TAG

/-- One byte of the middle region as wrap emits it: an escape tag before a tag value (R71). -/
def stuffByte (b : Byte) : Bytes := if isTag b then [ESC_TAG, b] else [b]

/-- `Wrap(s)` (R71). -/
def wrap (s : Bytes) : Bytes := START_TAG :: (s.flatMap stuffByte ++ [STOP_TAG])

/-- `IsFrameComplete(buf)` (R73): only the last two bytes are examined. -/
def isFrameComplete (buf : Bytes) : Bool :=
  let n := buf.length
  decide (2 ≤ n) && buf[n - 1]? == some STOP_TAG && buf[n - 2]? != some ESC_TAG

/-- Unwrap's scan from the byte after the start tag (R75). -/
def unwrapScan : Bytes → Except FrameFailure Bytes
  | [] => .error .missingStopTag
  | [b] =>
    if b = ESC_TAG then .error .missingStopTag
    else if b = STOP_TAG then .ok []
    else .error .missingStopTag
  | b :: v :: rest =>
    if b = ESC_TAG then (unwrapScan rest).map (v :: ·)
    else if b = STOP_TAG then .ok []
    else (unwrapScan (v :: rest)).map (b :: ·)

/-- `Unwrap(f)` (R75). -/
def unwrap : Bytes → Except FrameFailure Bytes
  | [] => .error .missingStartTag
  | b :: rest => if b = START_TAG then unwrapScan rest else .error .missingStartTag

/-- FRM_WRAP's rule (R72). -/
def frmWrapRule (_ : Params) (x : Bytes) : Effect := { finish .ok with OUT := wrap x }

/-- FRM_ISCOMPLETE's rule (R74). -/
def frmIsCompleteRule (_ : Params) (buf : Bytes) : Effect := { finish .ok with FC := isFrameComplete buf }

/-- FRM_UNWRAP's rule (R76). -/
def frmUnwrapRule (_ : Params) (f : Bytes) : Effect :=
  match unwrap f with
  | .error e => fail e.status
  | .ok m => { finish .ok with OUT := m }

/-- FRM_WRAP (R72). -/
def execFrmWrap (s : State) : Host.Outcome State Fault Refusal := runCommand frmWrapRule s

/-- FRM_ISCOMPLETE (R74). -/
def execFrmIsComplete (s : State) : Host.Outcome State Fault Refusal := runCommand frmIsCompleteRule s

/-- FRM_UNWRAP (R76). -/
def execFrmUnwrap (s : State) : Host.Outcome State Fault Refusal := runCommand frmUnwrapRule s

end Sys2Proof.Machine
end

