-- ==== Sys2Proof/Machine/Hamming.lean ====
section
/-! DEFINITION. The Hamming Codec (R81 to R93): encode, decode with single-bit correction, and the two commands
that run them. Positions are 1-indexed: position `q` of a codeword is buffer index `q - 1` (R10). -/

namespace Sys2Proof.Machine

/-- `isPow2(i)` (R12). -/
def isPow2 (i : Nat) : Bool := decide (1 ≤ i) && (i &&& (i - 1)) == 0

/-- The loop "p <- 1; while p <= n: ...; p <- 2 * p" from `p` on, at most `fuel` rounds. -/
def doublingsFrom : Nat → Nat → Nat → List Nat
  | 0, _, _ => []
  | fuel + 1, p, n => if p ≤ n then p :: doublingsFrom fuel (2 * p) n else []

/-- The power-of-two positions of a codeword of length `n`, upward (R84, R92); `n` rounds are enough. -/
def parityPositions (n : Nat) : List Nat := doublingsFrom n 1 n

/-- The placement walk from position `q + 1` on: a placeholder 0 at each power-of-two position, the next data bit
elsewhere, until the data is used up (R84). `fuel` bounds the number of positions. -/
def placeFrom : Nat → Nat → BitBuffer → BitBuffer
  | _, _, [] => []
  | 0, _, _ :: _ => []
  | fuel + 1, q, d :: ds =>
    if isPow2 (q + 1) then false :: placeFrom fuel (q + 1) (d :: ds) else d :: placeFrom fuel (q + 1) ds

/-- The codeword of the data bits `d` with placeholder parity bits (R84). A data bit is preceded by at most two
power-of-two positions, and after the first bit by at most one, so `2m + 1` positions are enough (DEDUCED, unsafe,
log entry 12). -/
def placeData (d : BitBuffer) : BitBuffer := placeFrom (2 * d.length + 1) 0 d

/-- XOR over the positions `i` of the list, numbered from `i`, with `p <= i` and `(i & p) != 0` (R84, R87). -/
def groupParityFrom (p : Nat) : Nat → BitBuffer → Bool
  | _, [] => false
  | i, b :: bs => (decide (p ≤ i) && (i &&& p) != 0 && b) ^^ groupParityFrom p (i + 1) bs

/-- XOR over `i` in `[p, len(c)]` with `(i & p) != 0` of the bit at position `i` (R84, R87). -/
def groupParity (c : BitBuffer) (p : Nat) : Bool := groupParityFrom p 1 c

/-- `HamEncodeBits(d)` (R84). -/
def hamEncodeBits (d : BitBuffer) : BitBuffer :=
  let c := placeData d
  (parityPositions c.length).foldl (fun c p => bbWrite c (p - 1) (groupParity c p)) c

/-- The bytes of the codeword of a payload (R85). -/
def hamEncode (o : BitOrder) (x : Bytes) : Bytes := bytesOf o (hamEncodeBits (bitsOf o x))

/-- The placement walk's last position for `m` data bits, from position `q` (R83). -/
def codewordLenFrom : Nat → Nat → Nat → Nat
  | _, q, 0 => q
  | 0, q, _ + 1 => q
  | fuel + 1, q, m + 1 =>
    if isPow2 (q + 1) then codewordLenFrom fuel (q + 1) (m + 1) else codewordLenFrom fuel (q + 1) m

/-- `n(m)`, the codeword length for `m` data bits (R83). -/
def codewordLen (m : Nat) : Nat := codewordLenFrom (2 * m + 1) 0 m

/-- The bytes a codeword of a payload of `k` bytes takes: ceil(n(8k)/8) (R85). -/
def codewordBytes (k : Nat) : Nat := (codewordLen (8 * k) + 7) / 8

/-- The largest `k <= bound` with `codewordBytes k <= B`, or 0. -/
def largestPayload (B : Nat) : Nat → Nat
  | 0 => 0
  | k + 1 => if codewordBytes (k + 1) ≤ B then k + 1 else largestPayload B k

/-- `k(B)`, the payload length of a received codeword of `B` bytes (R91); a payload is never longer than its
codeword. -/
def payloadLen (B : Nat) : Nat := largestPayload B B

/-- The mismatch set, upward (R87). -/
def mismatchSet (c : BitBuffer) : List Nat := (parityPositions c.length).filter fun p => groupParity c p

/-- The syndrome: the sum of the mismatch set (R88). -/
def syndrome (c : BitBuffer) : Nat := (mismatchSet c).sum

/-- The correction: the bit at index `s - 1` is inverted unless `s = 0` (R89). -/
def correct (c : BitBuffer) (s : Nat) : BitBuffer :=
  if s = 0 then c else bbWrite c (s - 1) (!bbRead c (s - 1))

/-- The bits at the positions that are no power of two, the list's first bit at position `q + 1` (R90). -/
def stripFrom : Nat → BitBuffer → BitBuffer
  | _, [] => []
  | q, b :: bs => if isPow2 (q + 1) then stripFrom (q + 1) bs else b :: stripFrom (q + 1) bs

/-- The stripped data sequence (R90). -/
def strip (c : BitBuffer) : BitBuffer := stripFrom 0 c

/-- `HamDecode(x)`: the payload and the syndrome (R92). -/
def hamDecode (o : BitOrder) (x : Bytes) : Bytes × Nat :=
  let c := bitsOf o x
  let s := syndrome c
  let data := strip (correct c s)
  (bytesOf o (data.take (8 * payloadLen x.length)), s)

/-- HAM_ENC's rule (R85). -/
def hamEncRule (p : Params) (x : Bytes) : Effect := { finish .ok with OUT := hamEncode p.bitOrder x }

/-- HAM_DEC's rule (R93), which HAM_PROC runs on an unwrapped frame (R113). -/
def hamDecRule (p : Params) (x : Bytes) : Effect :=
  let (payload, s) := hamDecode p.bitOrder x
  { finish (if s ≠ 0 then .parityMismatch else .ok) with OUT := payload, SYN := packSyn s }

/-- HAM_ENC (R85). -/
def execHamEnc (s : State) : Host.Outcome State Fault Refusal := runCommand hamEncRule s

/-- HAM_DEC (R93). -/
def execHamDec (s : State) : Host.Outcome State Fault Refusal := runCommand hamDecRule s

end Sys2Proof.Machine
end

