-- ==== Sys2Proof/Machine/Paths.lean ====
section
/-! DEFINITION. The composed paths (R112 to R119): receive (processFrame) and send, once per codec. -/

namespace Sys2Proof.Machine

/-- What decoding the unwrapped bytes of a frame does, for each codec (R112). -/
def decodeRule : Codec → Params → Bytes → Effect
  | .hamming => hamDecRule
  | .crc => crcDecRule

/-- `ProcessFrame(buf, codec)` as a command's effect (R112 to R114): a framing failure ends the path before any
decoding, and there is no completeness test (R115). -/
def processFrame (codec : Codec) (p : Params) (buf : Bytes) : Effect :=
  match unwrap buf with
  | .error e => fail e.status
  | .ok m => decodeRule codec p m

/-- The chunks of a payload, at most `fuel` of them. -/
def chunksFrom : Nat → Bytes → List Bytes
  | 0, _ => []
  | fuel + 1, x =>
    if x.length ≤ MAX_PAYLOAD then [x] else x.take MAX_PAYLOAD :: chunksFrom fuel (x.drop MAX_PAYLOAD)

/-- `Chunks(x)` (R116): one empty chunk for the empty payload. -/
def chunks (x : Bytes) : List Bytes := chunksFrom (x.length + 1) x

/-- The unit a codec makes of one chunk (R117). -/
def encodeUnit : Codec → BitOrder → Bytes → Bytes
  | .hamming => hamEncode
  | .crc => crcEncode

/-- The frames `Send(x, codec)` transmits, in order (R117). -/
def sendFrames (codec : Codec) (o : BitOrder) (x : Bytes) : List Bytes :=
  (chunks x).map fun u => wrap (encodeUnit codec o u)

/-- The rule of a send command (R118, R119). -/
def sendRule (codec : Codec) (p : Params) (x : Bytes) : Effect :=
  { finish .ok with frames := sendFrames codec p.bitOrder x }

/-- HAM_PROC (R113). -/
def execHamProc (s : State) : Host.Outcome State Fault Refusal := runCommand (processFrame .hamming) s

/-- CRC_PROC (R114). -/
def execCrcProc (s : State) : Host.Outcome State Fault Refusal := runCommand (processFrame .crc) s

/-- HAM_SEND (R118). -/
def execHamSend (s : State) : Host.Outcome State Fault Refusal := runCommand (sendRule .hamming) s

/-- CRC_SEND (R119). -/
def execCrcSend (s : State) : Host.Outcome State Fault Refusal := runCommand (sendRule .crc) s

end Sys2Proof.Machine
end

