-- ==== Sys2Proof/Machine/Dispatch.lean ====
section
/-! DEFINITION. One arm per command (R70). -/

namespace Sys2Proof.Machine

def exec (i : Instr) (s : State) : Host.Outcome State Fault Refusal :=
  match i with
  | .frmWrap => Sys2Proof.Machine.execFrmWrap s
  | .frmIsComplete => Sys2Proof.Machine.execFrmIsComplete s
  | .frmUnwrap => Sys2Proof.Machine.execFrmUnwrap s
  | .hamEnc => Sys2Proof.Machine.execHamEnc s
  | .hamDec => Sys2Proof.Machine.execHamDec s
  | .hamProc => Sys2Proof.Machine.execHamProc s
  | .hamSend => Sys2Proof.Machine.execHamSend s
  | .crcEnc => Sys2Proof.Machine.execCrcEnc s
  | .crcDec => Sys2Proof.Machine.execCrcDec s
  | .crcProc => Sys2Proof.Machine.execCrcProc s
  | .crcSend => Sys2Proof.Machine.execCrcSend s

end Sys2Proof.Machine
end

