-- ==== Sys2Proof/Machine/Step.lean ====
section
/-! DEFINITION. One step: the next action of the host's action list (R17, R67). -/

namespace Sys2Proof.Machine

/-- A write of the command word `w` to CMD (R53): a legal word runs its command, an illegal one the
ILLEGAL_COMMAND outcome (R58). -/
def writeCommandWord (w : Byte) (s : State) : Host.Outcome State Fault Refusal :=
  match decodeWord w with
  | .ok i => exec i (s.writeCMD w)
  | .error _ => execIllegal (s.writeCMD w)

/-- One action of the host, one atomic step (R29). After the last action the run has ended (R149) and the idle
block keeps its state (R137) (DEDUCED, unsafe, log entry 7). -/
def step (s : State) : Host.Outcome State Fault Refusal :=
  match s.nextAction with
  | none => .next s
  | some (.cmd w) => writeCommandWord w s.advance
  | some (.inBytes x) => hostWriteIN x s.advance
  | some .inOut => hostInOut s.advance
  | some (.inTX i) => hostInTX i s.advance
  | some (.inFlip j) => hostInFlip j s.advance
  | some .reset => hostReset s.advance
  | some (.read r) => hostRead r s.advance

/-- `s` with the command word of an opcode-table row as the host's next action (DESIGN CHOICE, unsafe, log
entry 6). -/
def State.withFetchWord (s : State) (nbits w : Nat) : State := s.placeCommand (BitVec.ofNat 8 (w % 2 ^ nbits))

end Sys2Proof.Machine
end

