-- ==== Sys2Proof/Safety.lean ====
section
/-! DEFINITION. What counts as a safe run and as a good state, and the spec's own forms that claims compare the
machine with. No step calls anything of this file. -/

namespace Sys2Proof.Machine

/-- A run of `n` host actions that meets no fault and no refusal: the only runs the spec gives a meaning (R146, R147). -/
def SafeRun (n : Nat) (s : State) : Prop := ∃ t, Sys2Proof.core.run n s = .next t

/-! ### The invariant -/

/-- The parameters are in range and IN and OUT fit in BUF_CAP (R7, R19). -/
def State.capacityOk (s : State) : Bool :=
  s.params.wf && decide (s.IN.length ≤ s.params.bufCap) && decide (s.OUT.length ≤ s.params.bufCap)

/-- The result registers are as the outcome in STATUS leaves them (R22 to R26, R30, R123). In IDLE they hold the
placeholders of log entry 1, and no frame has been sent. -/
def State.outcomeOk (s : State) : Bool :=
  match s.STATUS with
  | .idle => s.OUT == [] && !s.FC && s.SYN == 0#16 && s.REM == 0#15 && s.TX == []
  | .ok => s.SYN == 0#16 && (!s.FC || (s.OUT == [] && s.REM == 0#15))
  | .parityMismatch => !s.FC && s.SYN != 0#16 && s.REM == 0#15
  | .checksumMismatch => s.OUT == [] && !s.FC && s.SYN == 0#16
  | .missingStartTag | .missingStopTag | .illegalCommand =>
    s.OUT == [] && !s.FC && s.SYN == 0#16 && s.REM == 0#15

/-- The two lowest bits of REM, r[13] and r[14], are 0 (R98). -/
def State.remOk (s : State) : Bool := !s.REM.getLsbD 0 && !s.REM.getLsbD 1

/-- A frame the block can have sent: the wrap of a unit of at most 10 bytes, so at most 22 bytes long (R61, R116,
92_eei_decisions.md D22). -/
def frameOk (f : Bytes) : Bool :=
  decide (f.length ≤ 22) &&
    match unwrap f with
    | .ok m => f == wrap m && decide (m.length ≤ 10)
    | .error _ => false

/-- What every step keeps. An IN that was not written holds its placeholder, and the position is in the action
list or just after it (R17). -/
def State.inv (s : State) : Bool :=
  s.capacityOk && s.outcomeOk && s.remOk && s.TX.all frameOk && (s.inWritten || s.IN == []) &&
    decide (s.pos ≤ s.program.length)

/-! ### The spec's forms -/

/-- The 11 legal command words (R56). -/
def legalWords : List Byte := [0x00#8, 0x01#8, 0x02#8, 0x03#8, 0x04#8, 0x05#8, 0x06#8, 0x0B#8, 0x0C#8, 0x0D#8, 0x0E#8]

/-- A token of a frame's middle region (R62): `(true, v)` is the escape pair of `v`, `(false, v)` the byte `v`. -/
def tokenBytes (t : Bool × Byte) : Bytes := if t.1 then [0x5C#8, t.2] else [t.2]

/-- A byte outside an escape pair is neither the escape tag nor the stop tag: what the scan of R75 reads on over. -/
def tokenReadable (t : Bool × Byte) : Bool := t.1 || (t.2 != 0x5C#8 && t.2 != 0x7D#8)

/-- The bytes a command of a codec decodes: IN itself, or what Unwrap makes of IN on the receive path (R93, R106,
R112). `none` where no decoder runs. -/
def decodedUnit (i : Instr) (buf : Bytes) : Option Bytes :=
  match i with
  | .hamDec | .crcDec => some buf
  | .hamProc | .crcProc =>
    match unwrap buf with
    | .ok m => some m
    | .error _ => none
  | .frmWrap | .frmIsComplete | .frmUnwrap | .hamEnc | .hamSend | .crcEnc | .crcSend => none

/-- The XOR, over the positions `i` from `p` to len(c) with `(i & p) != 0`, of the bit at position `i` (R84, R87):
whether the number of such set bits is odd. -/
def groupXor (c : BitBuffer) (p : Nat) : Bool :=
  ((List.range' p (c.length + 1 - p)).filter fun i => (i &&& p) != 0 && bbRead c (i - 1)).length % 2 == 1

/-- P(n), counted (R81). -/
def parityCount (n : Nat) : Nat := ((List.range' 1 n).filter isPow2).length

/-- One window of the division: the generator XORed into [idx, idx + 16) in place (R97). -/
def xorWindow (w : BitBuffer) (idx : Nat) : BitBuffer :=
  (List.range 16).foldl (fun w j => bbWrite w (idx + j) (bbRead w (idx + j) ^^ CRC_GEN.getLsbD (15 - j))) w

/-- `CrcDivide` as R97 writes it: the working buffer changed in place. -/
def crcDivideInPlace (a : BitBuffer) : BitBuffer :=
  let w := (List.range 15).foldl (fun w z => bbWrite w (a.length + z) false) a
  let N := w.length
  let w := (List.range (N - 15)).foldl (fun w idx => if bbRead w idx then xorWindow w idx else w) w
  (List.range 15).map fun j => bbRead w (N - 15 + j)

/-- The payloads of R110 whose wire bytes are also those of a shorter payload. -/
def crcCollides (o : BitOrder) (x : Bytes) : Bool :=
  x != [] &&
    match crcChecksum o x with
    | [b] => b != 0#8 && lastThreeZero o b
    | _ => false

end Sys2Proof.Machine
end

