-- ==== Sys2Proof/Certificates/Slice0/Obligations.lean ====
section
/-! DEFINITION. The statements for the provers, and the one reading they need that nothing computes: a bit sequence
as a polynomial over GF(2). Each docstring names the rule of the spec, or says what the statement derives from. -/

open Sys2Proof Sys2Proof.Machine

/-- A(x) of R96: the bit at index `i` of a sequence of length N is the coefficient of x^(N-1-i). -/
noncomputable def Sys2Proof.bitsPoly (a : BitBuffer) : Polynomial (ZMod 2) :=
  ∑ i ∈ Finset.range a.length, if bbRead a i then Polynomial.X ^ (a.length - 1 - i) else 0

/-! ### Command words -/

/-- R56: the 11 words of the opcode map, each written out, decode to their commands, and no other word is legal. -/
def Obligations.CommandWordsDecode : Prop :=
  decodeWord 0x00#8 = .ok .frmWrap ∧ decodeWord 0x01#8 = .ok .frmIsComplete ∧
  decodeWord 0x02#8 = .ok .frmUnwrap ∧ decodeWord 0x03#8 = .ok .hamEnc ∧ decodeWord 0x04#8 = .ok .hamDec ∧
  decodeWord 0x05#8 = .ok .hamProc ∧ decodeWord 0x06#8 = .ok .hamSend ∧ decodeWord 0x0B#8 = .ok .crcEnc ∧
  decodeWord 0x0C#8 = .ok .crcDec ∧ decodeWord 0x0D#8 = .ok .crcProc ∧ decodeWord 0x0E#8 = .ok .crcSend ∧
  ∀ w, (∃ i, decodeWord w = .ok i) ↔ w ∈ legalWords

/-- An illegal word is rejected by the name of a check of R54 and R55 that it fails. Which words are illegal is the
spec's (R58); the names, and that RES is checked before OP and C, are the model's choice (log entry 13). -/
def Obligations.IllegalWordsRejectedByName : Prop :=
  ∀ w : Byte,
    (0x10 ≤ w.toNat → decodeWord w = .error .reservedBits) ∧
    (w = 0x07#8 ∨ w = 0x0F#8 → decodeWord w = .error .noOperation) ∧
    (w = 0x08#8 ∨ w = 0x09#8 ∨ w = 0x0A#8 → decodeWord w = .error .codecBitOnFramer)

/-- Decoding what the encoder writes gives the command back, and every legal word has one command. -/
def Obligations.DecodeEncodeAgree : Prop :=
  (∀ i, decodeWord (encode i) = .ok i ∧ decodeTableWord 8 (encode i).toNat = some i) ∧
    ∀ w i, decodeWord w = .ok i → w = encode i

/-- A program's command bytes, decoded in order, are its commands, and no other byte sequence decodes to them (R56,
R60: a command word is exactly one byte and decoding is an exact match). -/
def Obligations.ProgramDecodeEncodeAgree : Prop :=
  (∀ prog : List Instr, decodeAll (prog.map encode) = .ok prog) ∧
    ∀ (bytes : Bytes) (prog : List Instr), decodeAll bytes = .ok prog → bytes = prog.map encode

/-! ### The step -/

/-- A step whose next action writes a legal command word to CMD is `exec` of the decoded command, with CMD written
(as a field: log entry 3) and the position moved on (log entry 11) (R17, R21, R53). -/
def Obligations.StepRunsDecodedCommand : Prop :=
  ∀ (s : State) (w : Byte) (i : Instr), s.nextAction = some (.cmd w) → decodeWord w = .ok i →
    step s = exec i { s with CMD := w, pos := s.pos + 1 }

/-- R58, R127: an illegal word, written after IN was written, gives STATUS = ILLEGAL_COMMAND and every other result
register its default; IN, TX and all else are unchanged. -/
def Obligations.IllegalWordOutcome : Prop :=
  ∀ (s : State) (w : Byte), s.nextAction = some (.cmd w) → w ∉ legalWords → s.inWritten = true →
    step s = .next { s with CMD := w, pos := s.pos + 1, STATUS := .illegalCommand, OUT := [], FC := false,
                            SYN := 0#16, REM := 0#15 }

/-- The model's choice of log entry 5: an illegal word has the outcome of R127 before IN was written too, because no
unit runs and nothing reads IN. -/
def Obligations.IllegalWordNeedsNoOperand : Prop :=
  ∀ (s : State) (w : Byte), s.nextAction = some (.cmd w) → w ∉ legalWords → s.inWritten = false →
    step s = .next { s with CMD := w, pos := s.pos + 1, STATUS := .illegalCommand, OUT := [], FC := false,
                            SYN := 0#16, REM := 0#15 }

/-- R147: a host read of OUT, FC, SYN or REM in IDLE, a command before IN was written, and each directive of R67
without a meaning, are faults. -/
def Obligations.MeaninglessActionsFault : Prop :=
  ∀ s : State,
    (∀ r ∈ [HostReg.OUT, .FC, .SYN, .REM], s.nextAction = some (.read r) → s.STATUS = .idle →
      step s = .fault .resultNotWritten) ∧
    (∀ w i, s.nextAction = some (.cmd w) → decodeWord w = .ok i → s.inWritten = false →
      step s = .fault .inNotWritten) ∧
    (s.nextAction = some .inOut → s.STATUS = .idle → step s = .fault .resultNotWritten) ∧
    (∀ k, s.nextAction = some (.inTX k) → s.TX.length ≤ k → step s = .fault .noSuchFrame) ∧
    (∀ j, s.nextAction = some (.inFlip j) → s.inWritten = false → step s = .fault .inNotWritten) ∧
    (∀ j, s.nextAction = some (.inFlip j) → s.inWritten = true → 8 * s.IN.length < j →
      step s = .fault .flipOutOfRange)

/-- The directives that write IN (R67) leave the sequence they name in IN when it fits in BUF_CAP and change nothing
else. `IN FLIP j` inverts the stream bit of index j - 1 (R14). -/
def Obligations.DirectivesWriteIN : Prop :=
  ∀ s : State,
    (∀ x, s.nextAction = some (.inBytes x) → x.length ≤ s.params.bufCap →
      step s = .next { s with IN := x, inWritten := true, pos := s.pos + 1 }) ∧
    (s.nextAction = some .inOut → s.STATUS ≠ .idle → s.OUT.length ≤ s.params.bufCap →
      step s = .next { s with IN := s.OUT, inWritten := true, pos := s.pos + 1 }) ∧
    (∀ k f, s.nextAction = some (.inTX k) → s.TX[k]? = some f → f.length ≤ s.params.bufCap →
      step s = .next { s with IN := f, inWritten := true, pos := s.pos + 1 }) ∧
    (∀ j, s.nextAction = some (.inFlip j) → s.inWritten = true → 1 ≤ j → j ≤ 8 * s.IN.length →
      s.IN.length ≤ s.params.bufCap →
      step s = .next { s with IN := flipStreamBit s.params.bitOrder s.IN (j - 1), pos := s.pos + 1 })

/-- Host reads of registers that have values (R19, R43): STATUS always, IN once written, the others once a command
has completed. The read answers the register's value, has no side effect and can be repeated. -/
def Obligations.HostReadsHaveNoSideEffect : Prop :=
  ∀ s : State,
    hostValue .STATUS s = .ok (.status s.STATUS.code) ∧
    (s.inWritten = true → hostValue .IN s = .ok (.seq s.IN)) ∧
    (s.STATUS ≠ .idle → hostValue .OUT s = .ok (.seq s.OUT) ∧ hostValue .FC s = .ok (.flag s.FC) ∧
      hostValue .SYN s = .ok (.syn s.SYN) ∧ hostValue .REM s = .ok (.rem s.REM)) ∧
    ∀ r v, s.nextAction = some (.read r) → hostValue r s = .ok v → step s = .next { s with pos := s.pos + 1 }

/-- R138: RESET sets STATUS to IDLE and TX to [], and IN, OUT, FC, SYN and REM lose their values: a read of each
result register and every command is then a fault. R139: the parameters do not change. R17, on the fields of log
entry 11: the host's action list stays and the position moves on by one, as for every action. -/
def Obligations.ResetDirectiveClearsBlock : Prop :=
  ∀ s : State, s.nextAction = some .reset → ∃ t, step s = .next t ∧ t.STATUS = .idle ∧ t.TX = [] ∧
    t.inWritten = false ∧
    (∀ r ∈ [HostReg.OUT, .FC, .SYN, .REM], hostValue r t = .error .resultNotWritten) ∧
    (∀ i, exec i t = .fault .inNotWritten) ∧ t.params = s.params ∧ t.program = s.program ∧ t.pos = s.pos + 1

/-- R31, for every value of the parameters: after reset STATUS = IDLE and TX = [], a read of a result register and
every command is a fault, and the first command to complete gives the result registers values. -/
def Obligations.ResetStateHoldsNoValues : Prop :=
  (∀ p : Params, (State.resetWith p).STATUS = .idle ∧ (State.resetWith p).TX = [] ∧
    (State.resetWith p).inWritten = false ∧
    (∀ r ∈ [HostReg.OUT, .FC, .SYN, .REM], hostValue r (State.resetWith p) = .error .resultNotWritten) ∧
    ∀ i, exec i (State.resetWith p) = .fault .inNotWritten) ∧
  (∀ (s : State) (r : HostReg), r ∈ [HostReg.OUT, .FC, .SYN, .REM] → s.STATUS = .idle →
    hostValue r s = .error .resultNotWritten) ∧
  (∀ (i : Instr) (s : State), s.inWritten = false → exec i s = .fault .inNotWritten) ∧
  ∀ (i : Instr) (s t : State), exec i s = .next t → hostValue .OUT t = .ok (.seq t.OUT) ∧
    hostValue .FC t = .ok (.flag t.FC) ∧ hostValue .SYN t = .ok (.syn t.SYN) ∧ hostValue .REM t = .ok (.rem t.REM)

/-- R17 on the fields of log entry 11: no step changes the action list, and every action, RESET too, moves the
position on by exactly one. The model's reading of R149 and R137 (log entry 7): after the last action a step changes
nothing. -/
def Obligations.RunEndsAfterLastAction : Prop :=
  (∀ s t : State, step s = .next t → t.program = s.program ∧ (s.pos < s.program.length → t.pos = s.pos + 1)) ∧
  ∀ s : State, s.program.length ≤ s.pos → step s = .next s

/-! ### Whole-machine rules -/

/-- R45: a write of IN longer than BUF_CAP is refused; a command completes with an OUT within BUF_CAP or is refused;
only FRM_WRAP, HAM_ENC and CRC_ENC can have an OUT longer than IN, within the stated bounds. -/
def Obligations.OversizeIsRefused : Prop :=
  (∀ (s : State) (x : Bytes), s.nextAction = some (.inBytes x) → s.params.bufCap < x.length →
    step s = .refused .inTooLong) ∧
  (∀ s : State, s.nextAction = some .inOut → s.STATUS ≠ .idle → s.params.bufCap < s.OUT.length →
    step s = .refused .inTooLong) ∧
  (∀ (s : State) (k : Nat) (f : Bytes), s.nextAction = some (.inTX k) → s.TX[k]? = some f →
    s.params.bufCap < f.length → step s = .refused .inTooLong) ∧
  (∀ (s : State) (i : Instr), s.inWritten = true →
    exec i s = .refused .outTooLong ∨ ∃ t, exec i s = .next t ∧ t.OUT.length ≤ s.params.bufCap) ∧
  (∀ s : State, s.inWritten = true →
    (s.params.bufCap < (wrap s.IN).length → exec .frmWrap s = .refused .outTooLong) ∧
    (s.params.bufCap < (hamEncode s.params.bitOrder s.IN).length → exec .hamEnc s = .refused .outTooLong) ∧
    (s.params.bufCap < (crcEncode s.params.bitOrder s.IN).length → exec .crcEnc s = .refused .outTooLong)) ∧
  (∀ (s t : State) (i : Instr), exec i s = .next t → s.IN.length < t.OUT.length →
    i = .frmWrap ∨ i = .hamEnc ∨ i = .crcEnc) ∧
  (∀ (s : State) (i : Instr), s.inWritten = true → s.IN.length ≤ s.params.bufCap →
    i ≠ .frmWrap → i ≠ .hamEnc → i ≠ .crcEnc → ∃ t, exec i s = .next t) ∧
  (∀ x : Bytes, (wrap x).length ≤ 2 * x.length + 2) ∧
  ∀ (o : BitOrder) (x : Bytes), x.length ≤ 4095 →
    (hamEncode o x).length ≤ x.length + 2 ∧ (crcEncode o x).length ≤ x.length + 2

/-- The frame of every command: it changes no parameter, not IN, not CMD and nothing of the host's action list, and
TX only by the frames a send command appends (R20, R27, R28). Every result register is written by every command
(R30), so none is in the frame. CMD, the action list and the position are fields by log entries 3 and 11. -/
def Obligations.CommandFrame : Prop :=
  ∀ (i : Instr) (s t : State), exec i s = .next t →
    t.params = s.params ∧ t.IN = s.IN ∧ t.inWritten = s.inWritten ∧ t.CMD = s.CMD ∧ t.program = s.program ∧
    t.pos = s.pos ∧ (i ≠ .hamSend → i ≠ .crcSend → t.TX = s.TX) ∧ s.TX <+: t.TX

/-- The outcome table R123, row by row, each as "exactly when", with the records of its row: PARITY_MISMATCH on a
non-empty mismatch set, MISSING_START_TAG, MISSING_STOP_TAG, CHECKSUM_MISMATCH on a non-zero remainder or an empty
unit, and OK exactly when none of them is raised, with the command's result in OUT, FC, SYN and REM. An illegal word,
after IN was written, raises ILLEGAL_COMMAND; no legal command does, and none leaves IDLE. -/
def Obligations.CommandsReportTheirOutcomes : Prop :=
  (∀ (i : Instr) (s t : State), exec i s = .next t →
    t.STATUS ≠ .idle ∧ t.STATUS ≠ .illegalCommand ∧
    (t.STATUS = .parityMismatch ↔ (i = .hamDec ∨ i = .hamProc) ∧
      ∃ m, decodedUnit i s.IN = some m ∧ mismatchSet (bitsOf s.params.bitOrder m) ≠ []) ∧
    (t.STATUS = .parityMismatch → ∀ m, decodedUnit i s.IN = some m →
      t.OUT = (hamDecode s.params.bitOrder m).1 ∧ t.FC = false ∧
      t.SYN = BitVec.ofNat 16 (mismatchSet (bitsOf s.params.bitOrder m)).sum ∧ t.REM = 0#15) ∧
    (t.STATUS = .missingStartTag ↔ (i = .frmUnwrap ∨ i = .hamProc ∨ i = .crcProc) ∧
      (s.IN = [] ∨ ∃ b rest, s.IN = b :: rest ∧ b ≠ 0x7B#8)) ∧
    (t.STATUS = .missingStopTag ↔ (i = .frmUnwrap ∨ i = .hamProc ∨ i = .crcProc) ∧ s.IN.head? = some 0x7B#8 ∧
      ¬ ∃ (toks : List (Bool × Byte)) (rest : Bytes), toks.all tokenReadable = true ∧
        s.IN = [0x7B#8] ++ toks.flatMap tokenBytes ++ [0x7D#8] ++ rest) ∧
    (t.STATUS = .missingStartTag ∨ t.STATUS = .missingStopTag →
      t.OUT = [] ∧ t.FC = false ∧ t.SYN = 0#16 ∧ t.REM = 0#15) ∧
    (t.STATUS = .checksumMismatch ↔ (i = .crcDec ∨ i = .crcProc) ∧
      ∃ m, decodedUnit i s.IN = some m ∧
        (m = [] ∨ ∃ j, j ≤ 14 ∧ bbRead (crcDivide (bitsOf s.params.bitOrder m)) j = true)) ∧
    (t.STATUS = .checksumMismatch → ∀ m, decodedUnit i s.IN = some m →
      t.OUT = [] ∧ t.FC = false ∧ t.SYN = 0#16 ∧ t.REM = packRem (crcDivide (bitsOf s.params.bitOrder m))) ∧
    (t.STATUS = .ok ↔ t.STATUS ≠ .parityMismatch ∧ t.STATUS ≠ .missingStartTag ∧ t.STATUS ≠ .missingStopTag ∧
      t.STATUS ≠ .checksumMismatch) ∧
    (t.STATUS = .ok → t.FC = (decide (i = .frmIsComplete) && isFrameComplete s.IN) ∧ t.SYN = 0#16 ∧
      t.REM = (if i = .crcEnc then packRem (crcDivide (bitsOf s.params.bitOrder s.IN)) else 0#15) ∧
      (i = .frmWrap → t.OUT = wrap s.IN) ∧
      (i = .frmUnwrap → unwrap s.IN = .ok t.OUT) ∧
      (i = .hamEnc → t.OUT = bytesOf s.params.bitOrder (hamEncodeBits (bitsOf s.params.bitOrder s.IN))) ∧
      (i = .crcEnc → t.OUT = s.IN ++ crcChecksum s.params.bitOrder s.IN) ∧
      (∀ m, decodedUnit i s.IN = some m →
        (i = .hamDec ∨ i = .hamProc → t.OUT = (hamDecode s.params.bitOrder m).1) ∧
        (i = .crcDec ∨ i = .crcProc → t.OUT = m.take (m.length - crcCount s.params.bitOrder m))) ∧
      (i = .frmIsComplete ∨ i = .hamSend ∨ i = .crcSend → t.OUT = []))) ∧
  ∀ (s t : State) (w : Byte), s.nextAction = some (.cmd w) → w ∉ legalWords → s.inWritten = true →
    step s = .next t →
      t.STATUS = .illegalCommand ∧ t.OUT = [] ∧ t.FC = false ∧ t.SYN = 0#16 ∧ t.REM = 0#15

/-- R18: the results, and the frames handed to TX, are a function of IN, the command and the block's constants and
parameters; no earlier command and no other state reaches them. -/
def Obligations.ResultIsFunctionOfOperand : Prop :=
  ∀ (i : Instr) (s s' t t' : State), s.params = s'.params → s.IN = s'.IN →
    exec i s = .next t → exec i s' = .next t' →
    t.STATUS = t'.STATUS ∧ t.OUT = t'.OUT ∧ t.FC = t'.FC ∧ t.SYN = t'.SYN ∧ t.REM = t'.REM ∧
      ∃ frames, t.TX = s.TX ++ frames ∧ t'.TX = s'.TX ++ frames

/-- Every step keeps the invariant: IN and OUT fit in BUF_CAP, the result registers agree with STATUS, REM's two low
bits are 0, every frame on TX is a wrapped unit of at most 22 bytes, and the position stays in the action list. The
clauses on registers without a value rest on the placeholders of log entry 1, the one on the position on log entry 11. -/
def Obligations.StepKeepsInvariant : Prop :=
  ∀ s t : State, s.inv = true → step s = .next t → t.inv = true

/-- The invariant holds after reset, for every legal value of the parameters and any action list of the host, with
the placeholders of log entry 1. -/
def Obligations.ResetMeetsInvariant : Prop :=
  ∀ (p : Params) (program : List HostAction), p.wf = true →
    ({ State.resetWith p with program := program } : State).inv = true

/-! ### Registers and the bit buffer -/

/-- The code table of R22: bits [7:3] are 0, each code has its number, and no two outcomes share one. -/
def Obligations.StatusCodes : Prop :=
  Status.code .idle = 0x00#8 ∧ Status.code .ok = 0x01#8 ∧ Status.code .parityMismatch = 0x02#8 ∧
  Status.code .missingStartTag = 0x03#8 ∧ Status.code .missingStopTag = 0x04#8 ∧
  Status.code .checksumMismatch = 0x05#8 ∧ Status.code .illegalCommand = 0x06#8 ∧
  ∀ st : Status, st.code >>> 3 = 0#8 ∧ st.code.toNat < 7

/-- REM's packing (R26): REM[14 - j] = r[j]. -/
def Obligations.RemPacking : Prop :=
  ∀ (r : BitBuffer) (j : Nat), j ≤ 14 → (packRem r).getLsbD (14 - j) = bbRead r j

/-- SYN (R8, R25): for a codeword of at most 8·4095 bits the syndrome fits in 16 bits, the mismatch positions are
the powers of two 2^t with SYN[t] = 1 in increasing t, and SYN = 0 iff there is none. -/
def Obligations.SynListsMismatchSet : Prop :=
  ∀ c : BitBuffer, c.length ≤ 8 * 4095 →
    (packSyn (syndrome c)).toNat = syndrome c ∧ synPositions (packSyn (syndrome c)) = mismatchSet c ∧
    (packSyn (syndrome c) = 0#16 ↔ mismatchSet c = [])

/-- R37: index 8k + j of BitsOf(s) holds the bit of byte k that BIT_ORDER gives, and the length is 8·len(s). -/
def Obligations.BitsOfFollowsBitOrder : Prop :=
  ∀ s : Bytes, (∀ o, (bitsOf o s).length = 8 * s.length) ∧
    ∀ (k : Nat) (b : Byte) (j : Nat), s[k]? = some b → j ≤ 7 →
      bbRead (bitsOf .lsbFirst s) (8 * k + j) = b.getLsbD j ∧
      bbRead (bitsOf .msbFirst s) (8 * k + j) = b.getLsbD (7 - j)

/-- R39: BytesOf(BitsOf(s)) = s, and BitsOf(BytesOf(b)) is b followed by its zero padding bits. -/
def Obligations.ConversionsRoundTrip : Prop :=
  ∀ o : BitOrder, (∀ s : Bytes, bytesOf o (bitsOf o s) = s) ∧
    ∀ b : BitBuffer, bitsOf o (bytesOf o b) = b ++ List.replicate ((8 - b.length % 8) % 8) false

/-- R14: flipping a stream bit inverts that one bit and changes neither another bit nor the length. -/
def Obligations.FlipChangesOneBit : Prop :=
  ∀ (o : BitOrder) (s : Bytes) (t : Nat), t < 8 * s.length →
    (flipStreamBit o s t).length = s.length ∧
    flipStreamBit o s t = bytesOf o ((bitsOf o s).set t (!bbRead (bitsOf o s) t)) ∧
    ∀ i, bbRead (bitsOf o (flipStreamBit o s t)) i = (bbRead (bitsOf o s) i ^^ decide (i = t))

/-! ### Framer -/

/-- R71, R72: FRM_WRAP writes Wrap(IN), the start tag, every byte of IN with 0x5C before each tag value, and the stop
tag, 2 + len(IN) + the number of tag values bytes long; one longer than BUF_CAP is refused. -/
def Obligations.FrmWrapResult : Prop :=
  (∀ s : State, s.inWritten = true →
    (2 + s.IN.length + s.IN.countP (fun b => b == 0x7B#8 || b == 0x7D#8 || b == 0x5C#8) ≤ s.params.bufCap →
      exec .frmWrap s = .next { s with
        STATUS := .ok,
        OUT := [0x7B#8] ++
          s.IN.flatMap (fun b => if b = 0x7B#8 ∨ b = 0x7D#8 ∨ b = 0x5C#8 then [0x5C#8, b] else [b]) ++ [0x7D#8],
        FC := false, SYN := 0#16, REM := 0#15 }) ∧
    (s.params.bufCap < 2 + s.IN.length + s.IN.countP (fun b => b == 0x7B#8 || b == 0x7D#8 || b == 0x5C#8) →
      exec .frmWrap s = .refused .outTooLong)) ∧
  ∀ x : Bytes,
    wrap x = [0x7B#8] ++
      x.flatMap (fun b => if b = 0x7B#8 ∨ b = 0x7D#8 ∨ b = 0x5C#8 then [0x5C#8, b] else [b]) ++ [0x7D#8] ∧
    (wrap x).length = 2 + x.length + x.countP (fun b => b == 0x7B#8 || b == 0x7D#8 || b == 0x5C#8)

/-- R73, R74: FRM_ISCOMPLETE sets FC exactly when IN ends in a stop tag whose preceding byte is not the escape tag. -/
def Obligations.FrmIsCompleteResult : Prop :=
  ∀ s : State, s.inWritten = true → ∃ fc : Bool,
    exec .frmIsComplete s = .next { s with STATUS := .ok, OUT := [], FC := fc, SYN := 0#16, REM := 0#15 } ∧
    (fc = true ↔ ∃ (front : Bytes) (b : Byte), s.IN = front ++ [b, 0x7D#8] ∧ b ≠ 0x5C#8)

/-- R76: FRM_UNWRAP's three outcomes, for an IN within BUF_CAP. -/
def Obligations.FrmUnwrapResult : Prop :=
  ∀ s : State, s.inWritten = true → s.IN.length ≤ s.params.bufCap →
    (∀ m, unwrap s.IN = .ok m →
      exec .frmUnwrap s = .next { s with STATUS := .ok, OUT := m, FC := false, SYN := 0#16, REM := 0#15 }) ∧
    (unwrap s.IN = .error .missingStartTag →
      exec .frmUnwrap s = .next { s with STATUS := .missingStartTag, OUT := [], FC := false, SYN := 0#16, REM := 0#15 }) ∧
    (unwrap s.IN = .error .missingStopTag →
      exec .frmUnwrap s = .next { s with STATUS := .missingStopTag, OUT := [], FC := false, SYN := 0#16, REM := 0#15 })

/-- R75, R77: Unwrap fails on a missing start tag; else it reads escape pairs and plain bytes up to the first
unescaped stop tag and ignores what follows; else, out of bytes or at a dangling escape, the stop tag is missing. -/
def Obligations.UnwrapReadsUpToStopTag : Prop :=
  (∀ f, unwrap f = .error .missingStartTag ↔ f.head? ≠ some 0x7B#8) ∧
  (∀ f out, unwrap f = .ok out ↔ ∃ (toks : List (Bool × Byte)) (rest : Bytes),
    toks.all tokenReadable = true ∧ f = [0x7B#8] ++ toks.flatMap tokenBytes ++ [0x7D#8] ++ rest ∧
    out = toks.map Prod.snd) ∧
  ∀ f, unwrap f = .error .missingStopTag ↔ ∃ toks : List (Bool × Byte), toks.all tokenReadable = true ∧
    (f = [0x7B#8] ++ toks.flatMap tokenBytes ∨ f = [0x7B#8] ++ toks.flatMap tokenBytes ++ [0x5C#8])

/-- R78: escaping symmetry. -/
def Obligations.UnwrapInvertsWrap : Prop := ∀ s : Bytes, unwrap (wrap s) = .ok s

/-- R79: a wrapped frame tests complete unless its payload's last byte is the escape tag. -/
def Obligations.WrappedFrameTestsComplete : Prop :=
  ∀ s : Bytes, isFrameComplete (wrap s) = true ↔ s.getLast? ≠ some 0x5C#8

/-! ### Hamming codec -/

/-- R12: the power-of-two test is correct for every i >= 1, and never true of 0. -/
def Obligations.PowerOfTwoTest : Prop := ∀ i : Nat, isPow2 i = true ↔ ∃ t, i = 2 ^ t

/-- R83: n(m) is the smallest n with n - P(n) >= m, no power of two for m >= 1, with the values the rule lists; and
the doubling loop of R84 and R92 visits exactly the power-of-two positions, P(n) = floor(log2 n) + 1 of them (R81). -/
def Obligations.CodewordLengthIsSmallest : Prop :=
  (∀ m, IsLeast {n | m ≤ n - parityCount n} (codewordLen m)) ∧
  (∀ m, 1 ≤ m → isPow2 (codewordLen m) = false) ∧
  [0, 1, 4, 8, 16, 24, 32, 40, 48, 56, 64].map codewordLen = [0, 3, 7, 12, 21, 29, 38, 46, 54, 62, 71] ∧
  parityCount 0 = 0 ∧ (∀ n, 1 ≤ n → parityCount n = Nat.log2 n + 1) ∧
  ∀ n, parityPositions n = (List.range (parityCount n)).map (2 ^ ·)

/-- The codeword layout (R63, R84): n(m) bits, and the data bits at the positions that are no power of two. -/
def Obligations.HamCodewordLayout : Prop :=
  ∀ d : BitBuffer, (hamEncodeBits d).length = codewordLen d.length ∧ strip (hamEncodeBits d) = d

/-- R86: even parity at every parity position of an encoded codeword, over zero padding too. -/
def Obligations.HamEvenParity : Prop :=
  ∀ (d : BitBuffer) (p zeros : Nat), isPow2 p = true → p ≤ (hamEncodeBits d).length →
    groupXor (hamEncodeBits d ++ List.replicate zeros false) p = false

/-- R85: HAM_ENC writes the codeword's bytes; its length is ceil(n(8·len(IN))/8), which is len(IN) + 1 for 1 to 30
bytes and 0 for none. -/
def Obligations.HamEncResult : Prop :=
  (∀ s : State, s.inWritten = true → (codewordLen (8 * s.IN.length) + 7) / 8 ≤ s.params.bufCap →
    exec .hamEnc s = .next { s with
      STATUS := .ok, OUT := bytesOf s.params.bitOrder (hamEncodeBits (bitsOf s.params.bitOrder s.IN)), FC := false,
      SYN := 0#16, REM := 0#15 }) ∧
  ∀ (o : BitOrder) (x : Bytes),
    (bytesOf o (hamEncodeBits (bitsOf o x))).length = (codewordLen (8 * x.length) + 7) / 8 ∧
    (1 ≤ x.length → x.length ≤ 30 → (codewordLen (8 * x.length) + 7) / 8 = x.length + 1) ∧
    (x = [] → (codewordLen (8 * x.length) + 7) / 8 = 0)

/-- R87: the mismatch set holds exactly the power-of-two positions up to len(c) whose group XOR, the stored bit
included, is 1. -/
def Obligations.MismatchSetIsFailedChecks : Prop :=
  ∀ (c : BitBuffer) (p : Nat),
    p ∈ mismatchSet c ↔ isPow2 p = true ∧ p ≤ c.length ∧ groupXor c p = true

/-- From R95: the syndrome is the XOR of the positions of the set bits, so a flip of position j changes it by XOR
with j, whatever the codeword. -/
def Obligations.SyndromeIsXorOfSetPositions : Prop :=
  ∀ c : BitBuffer,
    syndrome c = ((List.range' 1 c.length).filter fun i => bbRead c (i - 1)).foldl (· ^^^ ·) 0

/-- R89: no change for syndrome 0; else index s - 1 is inverted; beyond the buffer the buffer grows to length s and
no bit of the received positions changes. -/
def Obligations.CorrectionInvertsOneBit : Prop :=
  ∀ (c : BitBuffer) (s : Nat),
    (s = 0 → correct c s = c) ∧
    (1 ≤ s → s ≤ c.length → correct c s = c.set (s - 1) (!bbRead c (s - 1))) ∧
    (c.length < s → (correct c s).length = s ∧ bbRead (correct c s) (s - 1) = true ∧
      (correct c s).take c.length = c ∧
      ∀ k, 8 * k ≤ (strip c).length → (strip (correct c s)).take (8 * k) = (strip c).take (8 * k))

/-- R91: k(B) is the largest k with ceil(n(8k)/8) <= B, inverts the encoder's length, has the values the rule lists
on 0..4095, and the encoder never makes 1 or 32 bytes. -/
def Obligations.PayloadLengthIsLargest : Prop :=
  (∀ B, IsGreatest {k | (codewordLen (8 * k) + 7) / 8 ≤ B} (payloadLen B)) ∧
  (∀ k, payloadLen ((codewordLen (8 * k) + 7) / 8) = k) ∧
  payloadLen 0 = 0 ∧ payloadLen 1 = 0 ∧ (∀ B, 2 ≤ B → B ≤ 31 → payloadLen B = B - 1) ∧ payloadLen 32 = 30 ∧
  (∀ B, 33 ≤ B → B ≤ 4095 → payloadLen B = B - 2) ∧
  ∀ k, (codewordLen (8 * k) + 7) / 8 ≠ 1 ∧ (codewordLen (8 * k) + 7) / 8 ≠ 32

/-- R93 with R92: HAM_DEC writes the first 8·k(B) stripped bits of the corrected codeword and the syndrome, and
STATUS says whether the mismatch set was empty. -/
def Obligations.HamDecResult : Prop :=
  ∀ s : State, s.inWritten = true → s.IN.length ≤ s.params.bufCap →
    exec .hamDec s = .next { s with
      STATUS := if syndrome (bitsOf s.params.bitOrder s.IN) = 0 then .ok else .parityMismatch,
      OUT := bytesOf s.params.bitOrder ((strip (correct (bitsOf s.params.bitOrder s.IN)
        (syndrome (bitsOf s.params.bitOrder s.IN)))).take (8 * payloadLen s.IN.length)),
      FC := false, SYN := BitVec.ofNat 16 (syndrome (bitsOf s.params.bitOrder s.IN)), REM := 0#15 }

/-- R94: an encoded payload decodes to itself with syndrome 0, and with any one stream bit flipped, padding included,
to itself with the flipped position as the syndrome. -/
def Obligations.HammingCorrectsEverySingleFlip : Prop :=
  ∀ (o : BitOrder) (x : Bytes), hamDecode o (hamEncode o x) = (x, 0) ∧
    ∀ j, 1 ≤ j → j ≤ 8 * (hamEncode o x).length →
      hamDecode o (flipStreamBit o (hamEncode o x) (j - 1)) = (x, j)

/-! ### CRC codec -/

/-- R101: CRC_ENC writes IN followed by its checksum, and REM with the packed remainder; OUT is one or two bytes
longer than IN. -/
def Obligations.CrcEncResult : Prop :=
  ∀ s : State, s.inWritten = true →
    s.IN.length + (crcChecksum s.params.bitOrder s.IN).length ≤ s.params.bufCap →
    exec .crcEnc s = .next { s with
      STATUS := .ok, OUT := s.IN ++ crcChecksum s.params.bitOrder s.IN, FC := false, SYN := 0#16,
      REM := packRem (crcDivide (bitsOf s.params.bitOrder s.IN)) } ∧
    ((crcChecksum s.params.bitOrder s.IN).length = 1 ∨ (crcChecksum s.params.bitOrder s.IN).length = 2)

/-- R106 with R103 and R105: CRC_DEC writes REM in every case; a non-zero remainder or an empty IN is
CHECKSUM_MISMATCH with OUT = [], else OUT is IN without its CrcCount checksum bytes. -/
def Obligations.CrcDecResult : Prop :=
  ∀ s : State, s.inWritten = true → s.IN.length ≤ s.params.bufCap →
    (s.IN ≠ [] → (∀ j, j ≤ 14 → bbRead (crcDivide (bitsOf s.params.bitOrder s.IN)) j = false) →
      exec .crcDec s = .next { s with
        STATUS := .ok, OUT := s.IN.take (s.IN.length - crcCount s.params.bitOrder s.IN), FC := false, SYN := 0#16,
        REM := 0#15 }) ∧
    ((s.IN = [] ∨ ∃ j, j ≤ 14 ∧ bbRead (crcDivide (bitsOf s.params.bitOrder s.IN)) j = true) →
      exec .crcDec s = .next { s with
        STATUS := .checksumMismatch, OUT := [], FC := false, SYN := 0#16,
        REM := packRem (crcDivide (bitsOf s.params.bitOrder s.IN)) })

/-- R97: the machine's division, which drops each bit it has passed, is the spec's in-place division. -/
def Obligations.CrcDivideIsInPlaceDivision : Prop :=
  ∀ a : BitBuffer, crcDivide a = crcDivideInPlace a ∧ (crcDivide a).length = 15

/-- R98: the remainder is that of A(x)·x^15 divided by G(x), G(x) = x^2·G'(x), and r[13] = r[14] = 0. -/
def Obligations.CrcRemainderIsPolynomialRemainder : Prop :=
  let X : Polynomial (ZMod 2) := Polynomial.X
  let G : Polynomial (ZMod 2) := X ^ 15 + X ^ 13 + X ^ 10 + X ^ 9 + X ^ 7 + X ^ 5 + X ^ 4 + X ^ 3 + X ^ 2
  G = X ^ 2 * (X ^ 13 + X ^ 11 + X ^ 8 + X ^ 7 + X ^ 5 + X ^ 3 + X ^ 2 + X + 1) ∧
  ∀ a : BitBuffer, Polynomial.modByMonic (bitsPoly a * X ^ 15) G = bitsPoly (crcDivide a) ∧
    bbRead (crcDivide a) 13 = false ∧ bbRead (crcDivide a) 14 = false

/-- R65: G's sixteen bits, most significant first, and its polynomial. -/
def Obligations.GeneratorBits : Prop :=
  crcGenBits = [true, false, true, false, false, true, true, false, true, false, true, true, true, true, false, false] ∧
  (∀ j, j ≤ 15 → bbRead crcGenBits j = (0xA6BC#16).getLsbD (15 - j)) ∧
  bitsPoly crcGenBits = (Polynomial.X ^ 15 + Polynomial.X ^ 13 + Polynomial.X ^ 10 + Polynomial.X ^ 9 +
    Polynomial.X ^ 7 + Polynomial.X ^ 5 + Polynomial.X ^ 4 + Polynomial.X ^ 3 + Polynomial.X ^ 2 : Polynomial (ZMod 2))

/-- R102 with R100: the checksum is the remainder's first byte, followed by its second, whose last three stream bits
are 0, unless that is zero; it is one byte for exactly the payloads with r[8..12] all zero. -/
def Obligations.ChecksumForm : Prop :=
  ∀ (o : BitOrder) (x : Bytes),
    ((crcChecksum o x).length = 1 ↔ ∀ j, 8 ≤ j → j ≤ 12 → bbRead (crcDivide (bitsOf o x)) j = false) ∧
    ((crcChecksum o x).length = 1 → crcChecksum o x = [packByte o (bbRead (crcDivide (bitsOf o x)))]) ∧
    ((crcChecksum o x).length ≠ 1 → ∃ b, b ≠ 0#8 ∧
      b = packByte o (fun j => bbRead (crcDivide (bitsOf o x)) (8 + j)) ∧
      (o = .lsbFirst → b &&& 0xE0#8 = 0#8) ∧ (o = .msbFirst → b &&& 0x07#8 = 0#8) ∧
      crcChecksum o x = [packByte o (bbRead (crcDivide (bitsOf o x))), b])

/-- R107: a payload with its own checksum is accepted. -/
def Obligations.CrcAcceptsOwnChecksum : Prop :=
  ∀ (o : BitOrder) (x : Bytes),
    crcAccept o (x ++ crcChecksum o x) = (true, List.replicate 15 false)

/-- R108: any one bit flipped in a checksummed payload gives a non-zero remainder and CHECKSUM_MISMATCH. -/
def Obligations.CrcRejectsEverySingleFlip : Prop :=
  ∀ (o : BitOrder) (x : Bytes) (j : Nat), 1 ≤ j → j ≤ 8 * (x ++ crcChecksum o x).length →
    (∃ i, i ≤ 14 ∧ bbRead (crcDivide (bitsOf o (flipStreamBit o (x ++ crcChecksum o x) (j - 1)))) i = true) ∧
    (crcDecode o (flipStreamBit o (x ++ crcChecksum o x) (j - 1))).1 = none

/-- R109: acceptance tests exactly that the polynomial of the bytes is a multiple of G'(x). -/
def Obligations.CrcAcceptanceIsDivisibility : Prop :=
  ∀ (o : BitOrder) (y : Bytes), (crcAccept o y).1 = true ↔
    ((Polynomial.X ^ 13 + Polynomial.X ^ 11 + Polynomial.X ^ 8 + Polynomial.X ^ 7 + Polynomial.X ^ 5 +
      Polynomial.X ^ 3 + Polynomial.X ^ 2 + Polynomial.X + 1 : Polynomial (ZMod 2)) ∣ bitsPoly (bitsOf o y))

/-- R104: the number of checksum bytes of an accepted sequence, and that it is two exactly when the sequence is the
untrimmed encoding of its bytes before the last two. -/
def Obligations.ChecksumCountOnAcceptance : Prop :=
  ∀ (o : BitOrder) (front : Bytes) (b : Byte), (crcAccept o (front ++ [b])).1 = true →
    (crcCount o (front ++ [b]) = 2 ↔
      front ≠ [] ∧ b ≠ 0#8 ∧ (o = .lsbFirst → b &&& 0xE0#8 = 0#8) ∧ (o = .msbFirst → b &&& 0x07#8 = 0#8)) ∧
    (crcCount o (front ++ [b]) ≠ 2 → crcCount o (front ++ [b]) = 1) ∧
    ∀ (x : Bytes) (a : Byte), front = x ++ [a] → (crcCount o (front ++ [b]) = 2 ↔ crcChecksum o x = [a, b])

/-- R110: the round trip, and its exceptions: a non-empty payload whose checksum is one non-zero byte with its last
three stream bits zero has the wire bytes of the payload without its last byte, which is what decodes. -/
def Obligations.CrcRoundTripAndCollisions : Prop :=
  ∀ (o : BitOrder) (x : Bytes),
    (crcCollides o x = false → crcDecode o (x ++ crcChecksum o x) = (some x, List.replicate 15 false)) ∧
    (crcCollides o x = true → crcDecode o (x ++ crcChecksum o x) = (some x.dropLast, List.replicate 15 false) ∧
      x ++ crcChecksum o x = x.dropLast ++ crcChecksum o x.dropLast)

/-! ### Receive and send paths -/

/-- R113: HAM_PROC. A framing failure ends the path before any decoding; else the unwrapped bytes are decoded. -/
def Obligations.HamProcResult : Prop :=
  ∀ s : State, s.inWritten = true → s.IN.length ≤ s.params.bufCap →
    (unwrap s.IN = .error .missingStartTag →
      exec .hamProc s = .next { s with STATUS := .missingStartTag, OUT := [], FC := false, SYN := 0#16, REM := 0#15 }) ∧
    (unwrap s.IN = .error .missingStopTag →
      exec .hamProc s = .next { s with STATUS := .missingStopTag, OUT := [], FC := false, SYN := 0#16, REM := 0#15 }) ∧
    ∀ m, unwrap s.IN = .ok m →
      exec .hamProc s = .next { s with
        STATUS := if (hamDecode s.params.bitOrder m).2 = 0 then .ok else .parityMismatch,
        OUT := (hamDecode s.params.bitOrder m).1, FC := false,
        SYN := BitVec.ofNat 16 (hamDecode s.params.bitOrder m).2, REM := 0#15 }

/-- R114: CRC_PROC. A framing failure leaves REM at its default; a rejected checksum leaves the failing remainder. -/
def Obligations.CrcProcResult : Prop :=
  ∀ s : State, s.inWritten = true → s.IN.length ≤ s.params.bufCap →
    (unwrap s.IN = .error .missingStartTag →
      exec .crcProc s = .next { s with STATUS := .missingStartTag, OUT := [], FC := false, SYN := 0#16, REM := 0#15 }) ∧
    (unwrap s.IN = .error .missingStopTag →
      exec .crcProc s = .next { s with STATUS := .missingStopTag, OUT := [], FC := false, SYN := 0#16, REM := 0#15 }) ∧
    ∀ m, unwrap s.IN = .ok m →
      ((crcDecode s.params.bitOrder m).1 = none →
        exec .crcProc s = .next { s with
          STATUS := .checksumMismatch, OUT := [], FC := false, SYN := 0#16,
          REM := packRem (crcDivide (bitsOf s.params.bitOrder m)) }) ∧
      ∀ payload, (crcDecode s.params.bitOrder m).1 = some payload →
        exec .crcProc s = .next { s with
          STATUS := .ok, OUT := payload, FC := false, SYN := 0#16,
          REM := packRem (crcDivide (bitsOf s.params.bitOrder m)) }

/-- R116: the chunks are consecutive pieces of the payload, all of 8 bytes except the last, which has 1 to 8; there
are ceil(len/8) of them; the empty payload is one empty chunk. -/
def Obligations.ChunksSplitPayload : Prop :=
  chunks [] = [[]] ∧
  ∀ x : Bytes, x ≠ [] → (chunks x).flatten = x ∧ (chunks x).length = (x.length + 7) / 8 ∧
    (∀ u ∈ (chunks x).dropLast, u.length = 8) ∧
    ∀ u ∈ (chunks x).getLast?, 1 ≤ u.length ∧ u.length ≤ 8

/-- R118 with R117: HAM_SEND appends, in chunk order, the wrap of each chunk's Hamming codeword bytes to TX. -/
def Obligations.HamSendResult : Prop :=
  ∀ s : State, s.inWritten = true →
    exec .hamSend s = .next { s with
      STATUS := .ok, OUT := [], FC := false, SYN := 0#16, REM := 0#15,
      TX := s.TX ++ (chunks s.IN).map fun u =>
        wrap (bytesOf s.params.bitOrder (hamEncodeBits (bitsOf s.params.bitOrder u))) }

/-- R119 with R117: CRC_SEND appends, in chunk order, the wrap of each chunk with its checksum to TX. -/
def Obligations.CrcSendResult : Prop :=
  ∀ s : State, s.inWritten = true →
    exec .crcSend s = .next { s with
      STATUS := .ok, OUT := [], FC := false, SYN := 0#16, REM := 0#15,
      TX := s.TX ++ (chunks s.IN).map fun u => wrap (u ++ crcChecksum s.params.bitOrder u) }

/-- R120: over a clean channel each frame of a send is processed to its chunk, with SYN = 0 for Hamming, except for a
CRC chunk of the collision set, which loses its last byte; and the chunks make up the payload. -/
def Obligations.CleanChannelDelivers : Prop :=
  ∀ (p : Params) (x : Bytes), (chunks x).flatten = x ∧
    sendFrames .hamming p.bitOrder x = (chunks x).map (fun u => wrap (hamEncode p.bitOrder u)) ∧
    sendFrames .crc p.bitOrder x = (chunks x).map (fun u => wrap (crcEncode p.bitOrder u)) ∧
    ∀ u ∈ chunks x,
      processFrame .hamming p (wrap (hamEncode p.bitOrder u)) = { finish .ok with OUT := u, SYN := 0#16 } ∧
      (crcCollides p.bitOrder u = false →
        processFrame .crc p (wrap (crcEncode p.bitOrder u)) = { finish .ok with OUT := u }) ∧
      (crcCollides p.bitOrder u = true →
        processFrame .crc p (wrap (crcEncode p.bitOrder u)) = { finish .ok with OUT := u.dropLast }) ∧
      ((hamEncode p.bitOrder u).getLast? = some 0x5C#8 → isFrameComplete (wrap (hamEncode p.bitOrder u)) = false) ∧
      ((crcEncode p.bitOrder u).getLast? = some 0x5C#8 → isFrameComplete (wrap (crcEncode p.bitOrder u)) = false)

/-- R121: a frame that unwraps to the encoded chunk with exactly one bit flipped is corrected by HAM_PROC, which
reports the flipped position, and rejected by CRC_PROC. -/
def Obligations.OneBitErrorOnChannel : Prop :=
  ∀ (p : Params) (u f : Bytes) (j : Nat), u.length ≤ 8 → 1 ≤ j →
    (j ≤ 8 * (hamEncode p.bitOrder u).length →
      unwrap f = .ok (flipStreamBit p.bitOrder (hamEncode p.bitOrder u) (j - 1)) →
      processFrame .hamming p f = { finish .parityMismatch with OUT := u, SYN := BitVec.ofNat 16 j }) ∧
    (j ≤ 8 * (crcEncode p.bitOrder u).length →
      unwrap f = .ok (flipStreamBit p.bitOrder (crcEncode p.bitOrder u) (j - 1)) →
      (processFrame .crc p f).STATUS = .checksumMismatch ∧ (processFrame .crc p f).OUT = [])
end

