-- ==== Sys2Proof/Laws/BitBuffer.lean ====
section
/-! SUPPORT. The laws of the bit buffer (R35, R36) and the lengths of its conversions (R37, R38). -/

namespace Sys2Proof.Machine

variable (b : BitBuffer) (o : BitOrder)

/-- An index at or beyond the length reads 0 (R35). -/
theorem bbRead_of_le {i : Nat} (h : b.length ≤ i) : bbRead b i = false := by
  simp [bbRead, List.getD, h]

/-- The length after a write: 1 + the highest index ever written (R36). -/
@[simp] theorem bbWrite_length (i : Nat) (v : Bool) : (bbWrite b i v).length = max b.length (i + 1) := by
  unfold bbWrite
  split
  · simp; omega
  · simp; omega

/-- A read of the index just written gives the value written. -/
@[simp] theorem bbRead_bbWrite_same (i : Nat) (v : Bool) : bbRead (bbWrite b i v) i = v := by
  unfold bbWrite
  split
  · simp [bbRead, List.getD, *]
  · simp [bbRead, List.getD, List.getElem?_append, *]

/-- A write leaves every other index as it read before. -/
theorem bbRead_bbWrite_ne {i j : Nat} (v : Bool) (h : j ≠ i) : bbRead (bbWrite b i v) j = bbRead b j := by
  unfold bbWrite
  split
  · simp [bbRead, List.getD, List.getElem?_set_ne (Ne.symm h)]
  · simp only [bbRead, List.getD, List.append_assoc, List.getElem?_append]
    split
    · rfl
    · rename_i hb
      rw [List.getElem?_eq_none (by omega : b.length ≤ j)]
      simp only [List.length_replicate, List.getElem?_replicate]
      split
      · simp
      · rw [List.getElem?_eq_none (by simp; omega)]

@[simp] theorem byteBits_length (x : Byte) : (byteBits o x).length = 8 := by simp [byteBits]

/-- BitsOf gives eight bits a byte (R37). -/
@[simp] theorem bitsOf_length (s : Bytes) : (bitsOf o s).length = 8 * s.length := by
  induction s with
  | nil => rfl
  | cons x s ih => simp [bitsOf] at ih ⊢; omega

/-- BytesOf gives the smallest number of bytes that holds the buffer (R38). -/
@[simp] theorem bytesOf_length : (bytesOf o b).length = (b.length + 7) / 8 := by simp [bytesOf]

/-- Flipping a stream bit of a byte sequence keeps its length (R14). -/
theorem flipStreamBit_length (s : Bytes) {t : Nat} (h : t < 8 * s.length) :
    (flipStreamBit o s t).length = s.length := by
  simp [flipStreamBit]; omega

end Sys2Proof.Machine
end

