-- ==== Sys2Proof/Laws/Framer.lean ====
section
/-! SUPPORT. The framer's functions one byte at a time: what wrap emits and what unwrap's scan does with the next
byte (R71, R75). -/

namespace Sys2Proof.Machine

/-- A byte is a tag value exactly when it is one of the three tags (R13). -/
theorem isTag_iff (b : Byte) : isTag b = true ↔ b = START_TAG ∨ b = STOP_TAG ∨ b = ESC_TAG := by
  simp [isTag, or_assoc]

@[simp] theorem unwrapScan_nil : unwrapScan [] = .error .missingStopTag := rfl

/-- The byte after an escape tag is taken literally. -/
@[simp] theorem unwrapScan_escape (v : Byte) (rest : Bytes) :
    unwrapScan (ESC_TAG :: v :: rest) = (unwrapScan rest).map (v :: ·) := by simp [unwrapScan]

/-- An escape tag with nothing after it. -/
@[simp] theorem unwrapScan_dangling : unwrapScan [ESC_TAG] = .error .missingStopTag := by simp [unwrapScan]

/-- The scan ends at an unescaped stop tag, whatever follows (R77). -/
@[simp] theorem unwrapScan_stop (rest : Bytes) : unwrapScan (STOP_TAG :: rest) = .ok [] := by
  cases rest <;> simp [unwrapScan, STOP_TAG, ESC_TAG]

/-- Any other byte is copied, an unescaped start tag too (R77). -/
theorem unwrapScan_plain {b : Byte} (h₁ : b ≠ ESC_TAG) (h₂ : b ≠ STOP_TAG) (rest : Bytes) :
    unwrapScan (b :: rest) = (unwrapScan rest).map (b :: ·) := by
  cases rest <;> simp [unwrapScan, h₁, h₂, Except.map]

end Sys2Proof.Machine
end

