-- ==== Sys2Proof/Laws/State.lean ====
section
/-! SUPPORT. One lemma per field per named update of the state, so that no proof unfolds a record update. -/

namespace Sys2Proof.Machine

variable (s : State)

/-! A command's effect writes the five result registers and appends to TX (R27, R30). -/

@[simp] theorem State.applyEffect_params (e : Effect) : (s.applyEffect e).params = s.params := rfl
@[simp] theorem State.applyEffect_IN (e : Effect) : (s.applyEffect e).IN = s.IN := rfl
@[simp] theorem State.applyEffect_inWritten (e : Effect) : (s.applyEffect e).inWritten = s.inWritten := rfl
@[simp] theorem State.applyEffect_CMD (e : Effect) : (s.applyEffect e).CMD = s.CMD := rfl
@[simp] theorem State.applyEffect_STATUS (e : Effect) : (s.applyEffect e).STATUS = e.STATUS := rfl
@[simp] theorem State.applyEffect_OUT (e : Effect) : (s.applyEffect e).OUT = e.OUT := rfl
@[simp] theorem State.applyEffect_FC (e : Effect) : (s.applyEffect e).FC = e.FC := rfl
@[simp] theorem State.applyEffect_SYN (e : Effect) : (s.applyEffect e).SYN = e.SYN := rfl
@[simp] theorem State.applyEffect_REM (e : Effect) : (s.applyEffect e).REM = e.REM := rfl
@[simp] theorem State.applyEffect_TX (e : Effect) : (s.applyEffect e).TX = s.TX ++ e.frames := rfl
@[simp] theorem State.applyEffect_program (e : Effect) : (s.applyEffect e).program = s.program := rfl
@[simp] theorem State.applyEffect_pos (e : Effect) : (s.applyEffect e).pos = s.pos := rfl

/-! A write of IN (R20). -/

@[simp] theorem State.writeIN_params (x : Bytes) : (s.writeIN x).params = s.params := rfl
@[simp] theorem State.writeIN_IN (x : Bytes) : (s.writeIN x).IN = x := rfl
@[simp] theorem State.writeIN_inWritten (x : Bytes) : (s.writeIN x).inWritten = true := rfl
@[simp] theorem State.writeIN_CMD (x : Bytes) : (s.writeIN x).CMD = s.CMD := rfl
@[simp] theorem State.writeIN_STATUS (x : Bytes) : (s.writeIN x).STATUS = s.STATUS := rfl
@[simp] theorem State.writeIN_OUT (x : Bytes) : (s.writeIN x).OUT = s.OUT := rfl
@[simp] theorem State.writeIN_FC (x : Bytes) : (s.writeIN x).FC = s.FC := rfl
@[simp] theorem State.writeIN_SYN (x : Bytes) : (s.writeIN x).SYN = s.SYN := rfl
@[simp] theorem State.writeIN_REM (x : Bytes) : (s.writeIN x).REM = s.REM := rfl
@[simp] theorem State.writeIN_TX (x : Bytes) : (s.writeIN x).TX = s.TX := rfl
@[simp] theorem State.writeIN_program (x : Bytes) : (s.writeIN x).program = s.program := rfl
@[simp] theorem State.writeIN_pos (x : Bytes) : (s.writeIN x).pos = s.pos := rfl

/-! A write of CMD (R21). -/

@[simp] theorem State.writeCMD_params (w : Byte) : (s.writeCMD w).params = s.params := rfl
@[simp] theorem State.writeCMD_IN (w : Byte) : (s.writeCMD w).IN = s.IN := rfl
@[simp] theorem State.writeCMD_inWritten (w : Byte) : (s.writeCMD w).inWritten = s.inWritten := rfl
@[simp] theorem State.writeCMD_CMD (w : Byte) : (s.writeCMD w).CMD = w := rfl
@[simp] theorem State.writeCMD_STATUS (w : Byte) : (s.writeCMD w).STATUS = s.STATUS := rfl
@[simp] theorem State.writeCMD_OUT (w : Byte) : (s.writeCMD w).OUT = s.OUT := rfl
@[simp] theorem State.writeCMD_FC (w : Byte) : (s.writeCMD w).FC = s.FC := rfl
@[simp] theorem State.writeCMD_SYN (w : Byte) : (s.writeCMD w).SYN = s.SYN := rfl
@[simp] theorem State.writeCMD_REM (w : Byte) : (s.writeCMD w).REM = s.REM := rfl
@[simp] theorem State.writeCMD_TX (w : Byte) : (s.writeCMD w).TX = s.TX := rfl
@[simp] theorem State.writeCMD_program (w : Byte) : (s.writeCMD w).program = s.program := rfl
@[simp] theorem State.writeCMD_pos (w : Byte) : (s.writeCMD w).pos = s.pos := rfl

/-! Moving to the next action (R17). -/

@[simp] theorem State.advance_params : (s.advance).params = s.params := rfl
@[simp] theorem State.advance_IN : (s.advance).IN = s.IN := rfl
@[simp] theorem State.advance_inWritten : (s.advance).inWritten = s.inWritten := rfl
@[simp] theorem State.advance_CMD : (s.advance).CMD = s.CMD := rfl
@[simp] theorem State.advance_STATUS : (s.advance).STATUS = s.STATUS := rfl
@[simp] theorem State.advance_OUT : (s.advance).OUT = s.OUT := rfl
@[simp] theorem State.advance_FC : (s.advance).FC = s.FC := rfl
@[simp] theorem State.advance_SYN : (s.advance).SYN = s.SYN := rfl
@[simp] theorem State.advance_REM : (s.advance).REM = s.REM := rfl
@[simp] theorem State.advance_TX : (s.advance).TX = s.TX := rfl
@[simp] theorem State.advance_program : (s.advance).program = s.program := rfl
@[simp] theorem State.advance_pos : (s.advance).pos = s.pos + 1 := rfl

/-! Reset (R138): the parameters and the host's action list stay (R139). -/

@[simp] theorem State.resetBlock_params : (s.resetBlock).params = s.params := rfl
@[simp] theorem State.resetBlock_IN : (s.resetBlock).IN = [] := rfl
@[simp] theorem State.resetBlock_inWritten : (s.resetBlock).inWritten = false := rfl
@[simp] theorem State.resetBlock_CMD : (s.resetBlock).CMD = 0#8 := rfl
@[simp] theorem State.resetBlock_STATUS : (s.resetBlock).STATUS = .idle := rfl
@[simp] theorem State.resetBlock_OUT : (s.resetBlock).OUT = [] := rfl
@[simp] theorem State.resetBlock_FC : (s.resetBlock).FC = false := rfl
@[simp] theorem State.resetBlock_SYN : (s.resetBlock).SYN = 0#16 := rfl
@[simp] theorem State.resetBlock_REM : (s.resetBlock).REM = 0#15 := rfl
@[simp] theorem State.resetBlock_TX : (s.resetBlock).TX = [] := rfl
@[simp] theorem State.resetBlock_program : (s.resetBlock).program = s.program := rfl
@[simp] theorem State.resetBlock_pos : (s.resetBlock).pos = s.pos := rfl

/-! Placing a command as the host's next action. -/

@[simp] theorem State.placeCommand_params (w : Byte) : (s.placeCommand w).params = s.params := rfl
@[simp] theorem State.placeCommand_IN (w : Byte) : (s.placeCommand w).IN = s.IN := rfl
@[simp] theorem State.placeCommand_inWritten (w : Byte) : (s.placeCommand w).inWritten = true := rfl
@[simp] theorem State.placeCommand_CMD (w : Byte) : (s.placeCommand w).CMD = s.CMD := rfl
@[simp] theorem State.placeCommand_STATUS (w : Byte) : (s.placeCommand w).STATUS = s.STATUS := rfl
@[simp] theorem State.placeCommand_OUT (w : Byte) : (s.placeCommand w).OUT = s.OUT := rfl
@[simp] theorem State.placeCommand_FC (w : Byte) : (s.placeCommand w).FC = s.FC := rfl
@[simp] theorem State.placeCommand_SYN (w : Byte) : (s.placeCommand w).SYN = s.SYN := rfl
@[simp] theorem State.placeCommand_REM (w : Byte) : (s.placeCommand w).REM = s.REM := rfl
@[simp] theorem State.placeCommand_TX (w : Byte) : (s.placeCommand w).TX = s.TX := rfl
@[simp] theorem State.placeCommand_program (w : Byte) : (s.placeCommand w).program = placeAction (.cmd w) s.program s.pos := rfl
@[simp] theorem State.placeCommand_pos (w : Byte) : (s.placeCommand w).pos = s.pos := rfl

/-! ### The effects -/

@[simp] theorem finish_STATUS (st : Status) : (finish st).STATUS = st := rfl
@[simp] theorem finish_OUT (st : Status) : (finish st).OUT = [] := rfl
@[simp] theorem finish_FC (st : Status) : (finish st).FC = false := rfl
@[simp] theorem finish_SYN (st : Status) : (finish st).SYN = 0#16 := rfl
@[simp] theorem finish_REM (st : Status) : (finish st).REM = 0#15 := rfl
@[simp] theorem finish_frames (st : Status) : (finish st).frames = [] := rfl

/-- A failure differs from `finish` in nothing: its OUT is the default too (R11, R30). -/
@[simp] theorem fail_eq_finish (st : Status) : fail st = finish st := rfl

end Sys2Proof.Machine
end

