-- ==== Sys2Proof/Laws/Ops.lean ====
section
/-! SUPPORT. What the shared operations can do, said once: the commit of an effect, the run of a command, and the
place of the host's next action. -/

namespace Sys2Proof.Machine

variable {s t : State} {e : Effect} {rule : Params → Bytes → Effect}

/-- A commit goes on exactly when OUT fits, and then leaves the effect applied. -/
theorem State.commit_eq_next : s.commit e = .next t ↔ e.OUT.length ≤ s.params.bufCap ∧ t = s.applyEffect e := by
  unfold State.commit
  split <;> simp_all [eq_comm]

theorem State.commit_eq_refused {r : Refusal} :
    s.commit e = .refused r ↔ s.params.bufCap < e.OUT.length ∧ r = .outTooLong := by
  unfold State.commit
  split <;> simp_all [eq_comm]

theorem State.commit_ne_fault {f : Fault} : s.commit e ≠ .fault f := by
  unfold State.commit
  split <;> simp

/-- An effect with an empty OUT is never refused. -/
theorem State.commit_of_out_nil (h : e.OUT = []) : s.commit e = .next (s.applyEffect e) := by
  simp [State.commit, h]

/-- The illegal-command outcome always completes. -/
theorem execIllegal_eq : execIllegal s = .next (s.applyEffect (fail .illegalCommand)) :=
  State.commit_of_out_nil rfl

/-- A command goes on exactly when IN was written and the OUT of its rule fits. -/
theorem runCommand_eq_next : runCommand rule s = .next t ↔
    s.inWritten = true ∧ (rule s.params s.IN).OUT.length ≤ s.params.bufCap ∧
      t = s.applyEffect (rule s.params s.IN) := by
  unfold runCommand
  split <;> simp_all [State.commit_eq_next]

theorem runCommand_eq_fault {f : Fault} :
    runCommand rule s = .fault f ↔ s.inWritten = false ∧ f = .inNotWritten := by
  unfold runCommand
  split
  · simp_all [State.commit_ne_fault]
  · simp_all [eq_comm (a := Fault.inNotWritten)]

theorem runCommand_eq_refused {r : Refusal} : runCommand rule s = .refused r ↔
    s.inWritten = true ∧ s.params.bufCap < (rule s.params s.IN).OUT.length ∧ r = .outTooLong := by
  unfold runCommand
  split <;> simp_all [State.commit_eq_refused]

/-- The placed action is the one read back at its index. -/
theorem placeAction_get (a : HostAction) (l : List HostAction) (k : Nat) : (placeAction a l k)[k]? = some a := by
  induction k generalizing l with
  | zero => cases l <;> simp [placeAction]
  | succ k ih => cases l <;> simp [placeAction, ih]

/-- Inside the list, the actions at other indexes stay. -/
theorem placeAction_get_ne (a : HostAction) (l : List HostAction) {k j : Nat} (hk : k ≤ l.length) (hj : j ≠ k) :
    (placeAction a l k)[j]? = l[j]? := by
  induction k generalizing l j with
  | zero =>
    obtain ⟨j, rfl⟩ := Nat.exists_eq_succ_of_ne_zero hj
    cases l <;> simp [placeAction]
  | succ k ih =>
    cases l with
    | nil => simp at hk
    | cons b rest =>
      cases j with
      | zero => simp [placeAction]
      | succ j => simpa [placeAction] using ih rest (by simpa using hk) (by omega)

@[simp] theorem State.nextAction_placeCommand (s : State) (w : Byte) :
    (s.placeCommand w).nextAction = some (.cmd w) := placeAction_get ..

end Sys2Proof.Machine
end

