-- ==== Sys2Proof/Laws/PerInstr.lean ====
section
/-! SUPPORT. For each command, the fields of its encoded word: RES is 0, and OP and C are those of its row of the
opcode map (R54 to R56). -/

namespace Sys2Proof.Laws.EncodedFields

/-- OP and C of each row of R56. -/
def rowFields : Instr → Nat × Bool
  | .frmWrap => (0, false)
  | .frmIsComplete => (1, false)
  | .frmUnwrap => (2, false)
  | .hamEnc => (3, false)
  | .hamDec => (4, false)
  | .hamProc => (5, false)
  | .hamSend => (6, false)
  | .crcEnc => (3, true)
  | .crcDec => (4, true)
  | .crcProc => (5, true)
  | .crcSend => (6, true)

/-- The encoded word passes every check of the format and has the OP and C of its row. -/
def Statement (i : Instr) : Prop :=
  wordWellFormed (encode i) = true ∧ resField (encode i) = 0 ∧ (opField (encode i), codecBit (encode i)) = rowFields i

theorem frmWrap : Statement .frmWrap := by unfold Statement; decide
theorem frmIsComplete : Statement .frmIsComplete := by unfold Statement; decide
theorem frmUnwrap : Statement .frmUnwrap := by unfold Statement; decide
theorem hamEnc : Statement .hamEnc := by unfold Statement; decide
theorem hamDec : Statement .hamDec := by unfold Statement; decide
theorem hamProc : Statement .hamProc := by unfold Statement; decide
theorem hamSend : Statement .hamSend := by unfold Statement; decide
theorem crcEnc : Statement .crcEnc := by unfold Statement; decide
theorem crcDec : Statement .crcDec := by unfold Statement; decide
theorem crcProc : Statement .crcProc := by unfold Statement; decide
theorem crcSend : Statement .crcSend := by unfold Statement; decide

end Sys2Proof.Laws.EncodedFields
end

