-- ==== Sys2Proof/Laws/Step.lean ====
section
/-! SUPPORT. What a command and a step can do, said once. -/

namespace Sys2Proof.Machine

/-- The rule each command runs: its effect as a function of the parameters and IN (R18). -/
def ruleOf : Instr → Params → Bytes → Effect
  | .frmWrap => frmWrapRule
  | .frmIsComplete => frmIsCompleteRule
  | .frmUnwrap => frmUnwrapRule
  | .hamEnc => hamEncRule
  | .hamDec => hamDecRule
  | .hamProc => processFrame .hamming
  | .hamSend => sendRule .hamming
  | .crcEnc => crcEncRule
  | .crcDec => crcDecRule
  | .crcProc => processFrame .crc
  | .crcSend => sendRule .crc

/-- Every command runs its rule. -/
theorem exec_eq_runCommand (i : Instr) (s : State) : exec i s = runCommand (ruleOf i) s := by
  cases i <;> rfl

/-- A command goes on exactly when IN was written and its OUT fits, and then leaves its effect applied. -/
theorem exec_eq_next {i : Instr} {s t : State} : exec i s = .next t ↔
    s.inWritten = true ∧ (ruleOf i s.params s.IN).OUT.length ≤ s.params.bufCap ∧
      t = s.applyEffect (ruleOf i s.params s.IN) := by
  rw [exec_eq_runCommand, runCommand_eq_next]

/-- A write of a command word: the effect of the command it selects, or of an illegal word. -/
theorem writeCommandWord_eq_next {w : Byte} {s t : State} (h : writeCommandWord w s = .next t) :
    (∃ i, decodeWord w = .ok i ∧ s.inWritten = true ∧ (ruleOf i s.params s.IN).OUT.length ≤ s.params.bufCap ∧
      t = (s.writeCMD w).applyEffect (ruleOf i s.params s.IN)) ∨
    (∃ e, decodeWord w = .error e ∧ t = (s.writeCMD w).applyEffect (fail .illegalCommand)) := by
  unfold writeCommandWord at h
  split at h
  · exact .inl ⟨_, ‹_›, by simpa using exec_eq_next.mp h⟩
  · exact .inr ⟨_, ‹_›, by rw [execIllegal_eq] at h; injection h with h; exact h.symm⟩

theorem hostWriteIN_eq_next {x : Bytes} {s t : State} :
    hostWriteIN x s = .next t ↔ x.length ≤ s.params.bufCap ∧ t = s.writeIN x := by
  unfold hostWriteIN
  split <;> simp_all [eq_comm]

/-- Everything one step can do when it goes on: the run has ended, a command word was written, IN was written
with a sequence that fits, the block was reset, or a register was read. -/
theorem step_cases {s t : State} (h : step s = .next t) :
    (s.nextAction = none ∧ t = s) ∨
    (∃ w, s.nextAction = some (.cmd w) ∧ writeCommandWord w s.advance = .next t) ∨
    (∃ x, x.length ≤ s.params.bufCap ∧ t = s.advance.writeIN x ∧
      (s.nextAction = some (.inBytes x) ∨ (s.nextAction = some .inOut ∧ s.STATUS ≠ .idle ∧ x = s.OUT) ∨
        (∃ k, s.nextAction = some (.inTX k) ∧ s.TX[k]? = some x) ∨
        (∃ j, s.nextAction = some (.inFlip j) ∧ s.inWritten = true ∧ 1 ≤ j ∧ j ≤ 8 * s.IN.length ∧
          x = flipStreamBit s.params.bitOrder s.IN (j - 1)))) ∨
    (s.nextAction = some .reset ∧ t = s.advance.resetBlock) ∨
    (∃ r v, s.nextAction = some (.read r) ∧ hostValue r s.advance = .ok v ∧ t = s.advance) := by
  unfold step at h
  split at h
  case h_1 ha => exact .inl ⟨ha, by injection h with h; exact h.symm⟩
  case h_2 w ha => exact .inr (.inl ⟨w, ha, h⟩)
  case h_3 x ha =>
    obtain ⟨hx, ht⟩ := hostWriteIN_eq_next.mp h
    exact .inr (.inr (.inl ⟨x, hx, ht, .inl ha⟩))
  case h_4 ha =>
    unfold hostInOut at h
    split at h
    · rename_i hr
      obtain ⟨hx, ht⟩ := hostWriteIN_eq_next.mp h
      exact .inr (.inr (.inl ⟨_, hx, ht, .inr (.inl ⟨ha, by simpa [State.resultsWritten] using hr, rfl⟩)⟩))
    · cases h
  case h_5 k ha =>
    unfold hostInTX at h
    split at h
    · obtain ⟨hx, ht⟩ := hostWriteIN_eq_next.mp h
      exact .inr (.inr (.inl ⟨_, hx, ht, .inr (.inr (.inl ⟨k, ha, ‹_›⟩))⟩))
    · cases h
  case h_6 j ha =>
    unfold hostInFlip at h
    split at h
    · cases h
    · split at h
      · cases h
      · rename_i hw hj
        obtain ⟨hx, ht⟩ := hostWriteIN_eq_next.mp h
        simp only [State.advance_inWritten, State.advance_IN, Bool.not_eq_false] at hw hj
        exact .inr (.inr (.inl ⟨_, hx, ht, .inr (.inr (.inr ⟨j, ha, hw, by omega, by omega, rfl⟩))⟩))
  case h_7 ha => exact .inr (.inr (.inr (.inl ⟨ha, by injection h with h; exact h.symm⟩)))
  case h_8 r ha =>
    unfold hostRead at h
    split at h
    · exact .inr (.inr (.inr (.inr ⟨r, _, ha, ‹_›, by injection h with h; exact h.symm⟩)))
    · cases h

/-- The host's placed command word is what the next step writes to CMD. -/
theorem step_withFetchWord (s : State) (nbits w : Nat) :
    step (s.withFetchWord nbits w) =
      writeCommandWord (BitVec.ofNat 8 (w % 2 ^ nbits)) (s.withFetchWord nbits w).advance := by
  have h : (s.withFetchWord nbits w).nextAction = some (.cmd (BitVec.ofNat 8 (w % 2 ^ nbits))) :=
    State.nextAction_placeCommand ..
  unfold step
  rw [h]

end Sys2Proof.Machine
end

