-- ==== Sys2Proof/Tests/Slice0.lean ====
section
/-! SUPPORT. Tests against the spec's own vectors (95_test_vectors.md and the rules' examples), the smoke test of
WellFormed, and a witness of the hypotheses of every statement that has some. -/

namespace Sys2Proof.Tests

open Sys2Proof.Machine

/-- The block with parameters `o` and `cap` and IN = `x`, nothing run yet. -/
def blk (o : BitOrder) (cap : Nat) (x : Bytes) : State :=
  { State.resetWith { bitOrder := o, bufCap := cap } with IN := x, inWritten := true }

/-- `blk` with BIT_ORDER = LSB_FIRST and room for 64 bytes. -/
def lsb (x : Bytes) : State := blk .lsbFirst 64 x
/-- `blk` with BIT_ORDER = MSB_FIRST and room for 64 bytes. -/
def msb (x : Bytes) : State := blk .msbFirst 64 x

/-- The state `s` with the one host action `a` to do. -/
def acting (a : HostAction) (s : State) : State := { s with program := [a] }

/-- The next state of an outcome. -/
def nextOf : Host.Outcome State Fault Refusal → Option State
  | .next t => some t
  | _ => none

/-- The fault of an outcome. -/
def faultOf : Host.Outcome State Fault Refusal → Option Fault
  | .fault f => some f
  | _ => none

/-- The refusal of an outcome. -/
def refusalOf : Host.Outcome State Fault Refusal → Option Refusal
  | .refused r => some r
  | _ => none

/-- STATUS and OUT after a command. -/
def statusOut (i : Instr) (s : State) : Option (Status × Bytes) := (nextOf (exec i s)).map fun t => (t.STATUS, t.OUT)

/-! ### WellFormed: an ill-formed word for each check (R54, R55) -/

theorem test_reserved_bits_refused : wordWellFormed 0x10#8 = false ∧ checkWord 0x13#8 = some .reservedBits := by decide
theorem test_op_seven_refused : wordWellFormed 0x07#8 = false ∧ checkWord 0x0F#8 = some .noOperation := by decide
theorem test_codec_bit_on_framer_refused :
    wordWellFormed 0x08#8 = false ∧ checkWord 0x0A#8 = some .codecBitOnFramer := by decide
theorem test_legal_words_well_formed : legalWords.all wordWellFormed = true := by decide

/-! ### Decoding: words written out bit by bit from R54 and R56 (RES C OP) -/

theorem test_decode_framer : decodeTableWord 8 0b0000_0_000 = some .frmWrap ∧
    decodeTableWord 8 0b0000_0_001 = some .frmIsComplete ∧ decodeTableWord 8 0b0000_0_010 = some .frmUnwrap := by decide
theorem test_decode_hamming : decodeTableWord 8 0b0000_0_011 = some .hamEnc ∧
    decodeTableWord 8 0b0000_0_100 = some .hamDec ∧ decodeTableWord 8 0b0000_0_101 = some .hamProc ∧
    decodeTableWord 8 0b0000_0_110 = some .hamSend := by decide
theorem test_decode_crc : decodeTableWord 8 0b0000_1_011 = some .crcEnc ∧
    decodeTableWord 8 0b0000_1_100 = some .crcDec ∧ decodeTableWord 8 0b0000_1_101 = some .crcProc ∧
    decodeTableWord 8 0b0000_1_110 = some .crcSend := by decide
/-- 95_test_vectors.md 2.11. -/
theorem test_decode_illegal : [0x07, 0x08, 0x09, 0x0A, 0x0F, 0x10, 0x13, 0x80, 0xFF].map (decodeTableWord 8) =
    List.replicate 9 none := by decide
/-- R66: a mnemonic is its one byte, and another spelling is no command. -/
theorem test_assemble : assemble "CRC_SEND" = some 0x0E#8 ∧ assemble "crc_send" = none := by decide

/-! ### Commands: 95_test_vectors.md sections 2.4 to 2.10 -/

theorem test_frmWrap_tags : statusOut .frmWrap (lsb [0x7B, 0x7D, 0x5C]) =
    some (.ok, [0x7B, 0x5C, 0x7B, 0x5C, 0x7D, 0x5C, 0x5C, 0x7D]) := by decide
theorem test_frmWrap_empty : statusOut .frmWrap (lsb []) = some (.ok, [0x7B, 0x7D]) := by decide
theorem test_frmIsComplete_wrapped_escape :
    (nextOf (exec .frmIsComplete (lsb [0x7B, 0x5C, 0x5C, 0x7D]))).map (·.FC) = some false := by decide
theorem test_frmIsComplete_first_byte_not_examined :
    (nextOf (exec .frmIsComplete (lsb [0x7D, 0x7D]))).map (·.FC) = some true := by decide
theorem test_frmUnwrap_rest_ignored : statusOut .frmUnwrap (lsb [0x7B, 0x41, 0x7D, 0x42, 0x7D]) =
    some (.ok, [0x41]) := by decide
theorem test_frmUnwrap_dangling_escape : statusOut .frmUnwrap (lsb [0x7B, 0x5C]) = some (.missingStopTag, []) := by decide
theorem test_hamEnc_lsb : statusOut .hamEnc (lsb [0x7B, 0x7D, 0x5C]) = some (.ok, [0xD4, 0x57, 0x8F, 0x0B]) := by decide
theorem test_hamEnc_msb : statusOut .hamEnc (msb [0x41, 0x42]) = some (.ok, [0xC8, 0x15, 0x10]) := by decide
/-- Position 12 flipped. -/
theorem test_hamDec_flip : (nextOf (exec .hamDec (lsb [0x84, 0x0C]))).map (fun t => (t.STATUS, t.OUT, t.SYN)) =
    some (.parityMismatch, [0x41], 12) := by decide
/-- Positions 12 and 16 flipped: s = 28 is beyond the buffer (R89). -/
theorem test_hamDec_beyond : (nextOf (exec .hamDec (lsb [0x84, 0x8C]))).map (fun t => (t.STATUS, t.OUT, t.SYN)) =
    some (.parityMismatch, [0xC1], 28) := by decide
theorem test_hamProc_trailing_byte : statusOut .hamProc (lsb [0x7B, 0x5C, 0x5C, 0x09, 0x7D, 0x99]) =
    some (.ok, [0x9B]) := by decide
theorem test_hamProc_no_start : statusOut .hamProc (lsb [0x41, 0x7D]) = some (.missingStartTag, []) := by decide
theorem test_hamSend_stuffed : (nextOf (exec .hamSend (lsb [0x3E]))).map (·.TX) =
    some [[0x7B, 0x5C, 0x7B, 0x03, 0x7D]] := by decide
theorem test_hamSend_two_chunks : (nextOf (exec .hamSend (lsb [1, 2, 3, 4, 5, 6, 7, 8, 9]))).map (·.TX) =
    some [[0x7B, 0x0F, 0xA0, 0x60, 0x00, 0x41, 0x81, 0xC1, 0x81, 0x04, 0x7D], [0x7B, 0x4C, 0x00, 0x7D]] := by decide +kernel
theorem test_crcEnc_lsb : (nextOf (exec .crcEnc (lsb [0x41]))).map (fun t => (t.OUT, t.REM)) =
    some ([0x41, 0xEB, 0x0B], 0x6BE8) := by decide
/-- The first checksum byte is 0 and is kept. -/
theorem test_crcEnc_msb : (nextOf (exec .crcEnc (msb [0x5C]))).map (fun t => (t.OUT, t.REM)) =
    some ([0x5C, 0x00, 0x20], 0x0010) := by decide
theorem test_crcDec_flip : (nextOf (exec .crcDec (lsb [0x41, 0xEB, 0x0A]))).map (fun t => (t.STATUS, t.OUT, t.REM)) =
    some (.checksumMismatch, [], 0x2690) := by decide
theorem test_crcDec_one_byte_checksum : statusOut .crcDec (msb [0x41, 0x42, 0x47]) = some (.ok, [0x41, 0x42]) := by decide
theorem test_crcProc_tags : statusOut .crcProc (lsb [0x7B, 0x5C, 0x7B, 0x5C, 0x7D, 0x5C, 0x5C, 0x86, 0x18, 0x7D]) =
    some (.ok, [0x7B, 0x7D, 0x5C]) := by decide
theorem test_crcProc_empty_middle : statusOut .crcProc (lsb [0x7B, 0x7D]) = some (.checksumMismatch, []) := by decide
theorem test_crcSend_empty : (nextOf (exec .crcSend (lsb []))).map (·.TX) = some [[0x7B, 0x00, 0x7D]] := by decide
theorem test_crcSend_one_byte_checksum : (nextOf (exec .crcSend (lsb [0x06, 0x03]))).map (·.TX) =
    some [[0x7B, 0x06, 0x03, 0x5C, 0x5C, 0x7D]] := by decide

/-! ### The bit-level functions: 95_test_vectors.md 2.1 to 2.3 -/

theorem test_bytesOf_padding : bytesOf .lsbFirst [true, false, true] = [0x05] ∧
    bytesOf .msbFirst [true, false, true] = [0xA0] := by decide
/-- Three rows of the (7,4) table of 2.2. -/
theorem test_seven_four : hamEncodeBits [false, false, false, true] = [true, true, false, true, false, false, true] ∧
    hamEncodeBits [true, false, true, true] = [false, true, true, false, false, true, true] ∧
    hamEncodeBits [false, true, true, false] = [true, true, false, false, true, true, false] := by decide
theorem test_payload_lengths : [0, 1, 2, 3, 9, 30, 31, 32, 33, 34].map payloadLen =
    [0, 0, 1, 2, 8, 29, 30, 30, 31, 32] := by decide +kernel

/-! ### Host actions: the rows of 95_test_vectors.md 2.11, 2.12 and section 3 -/

/-- P3, action 6. -/
theorem test_step_illegal : (nextOf (step (acting (.cmd 0x0F) (lsb [0x7B])))).map
    (fun t => (t.STATUS, t.OUT, t.IN, t.TX)) = some (.illegalCommand, [], [0x7B], []) := by decide
/-- P1, action 6. -/
theorem test_step_flip : (nextOf (step (acting (.inFlip 28) (lsb [0x7B, 0x5C, 0x5C, 0x09, 0x7D])))).map (·.IN) =
    some [0x7B, 0x5C, 0x5C, 0x01, 0x7D] := by decide
/-- P4, action 3. -/
theorem test_step_inTX : (nextOf (step (acting (.inTX 1) { lsb [] with TX := [[0x7B], [0x7D]] }))).map (·.IN) =
    some [0x7D] := by decide
/-- P4, action 7, and the read of OUT after it. -/
theorem test_step_reset : (nextOf (step (acting .reset { lsb [9] with STATUS := .ok, TX := [[1]] }))).map
    (fun t => (t.STATUS, t.TX, faultOf (hostRead .OUT t), faultOf (exec .hamEnc t))) =
    some (.idle, [], some .resultNotWritten, some .inNotWritten) := by decide
/-- R45. -/
theorem test_oversize_refused : refusalOf (exec .frmWrap (blk .lsbFirst 22 (List.replicate 11 0x7B))) =
    some .outTooLong := by decide
/-- A command word placed as the host's next action is the first command after reset. -/
theorem test_withFetchWord_runs : legalWords.all (fun w =>
    (nextOf (step (State.reset.withFetchWord 8 w.toNat))).isSome) = true := by decide

/-! ### Witnesses of the statements' hypotheses, one per clause -/

theorem witness_IllegalWordsRejectedByName : 0x10 ≤ (0x10#8).toNat ∧ 0x10 ≤ (0xFF#8).toNat ∧
    decodeWord 0x10#8 = .error .reservedBits ∧ decodeWord 0x0F#8 = .error .noOperation ∧
    decodeWord 0x0A#8 = .error .codecBitOnFramer := by decide
theorem witness_DecodeEncodeAgree : decodeWord 0x0E#8 = .ok .crcSend := by decide
theorem witness_ProgramDecodeEncodeAgree : decodeAll [0x06, 0x01, 0x05] = .ok [.hamSend, .frmIsComplete, .hamProc] := by
  decide
theorem witness_StepRunsDecodedCommand : (acting (.cmd 0x03) (lsb [0x41])).nextAction = some (.cmd 0x03) ∧
    decodeWord 0x03 = .ok .hamEnc := by decide
theorem witness_IllegalWordOutcome : (acting (.cmd 0x10) (lsb [])).nextAction = some (.cmd 0x10) ∧
    0x10 ∉ legalWords ∧ (acting (.cmd 0x10) (lsb [])).inWritten = true := by decide
theorem witness_IllegalWordNeedsNoOperand : (acting (.cmd 0x07) State.reset).nextAction = some (.cmd 0x07) ∧
    0x07 ∉ legalWords ∧ (acting (.cmd 0x07) State.reset).inWritten = false := by decide
theorem witness_MeaninglessActionsFault_read :
    (acting (.read .OUT) State.reset).nextAction = some (.read .OUT) ∧ State.reset.STATUS = .idle ∧
    faultOf (step (acting (.read .OUT) State.reset)) = some .resultNotWritten := by decide
theorem witness_MeaninglessActionsFault_command :
    (acting (.cmd 0x00) State.reset).nextAction = some (.cmd 0x00) ∧ decodeWord 0x00 = .ok .frmWrap ∧
    State.reset.inWritten = false ∧ faultOf (step (acting (.cmd 0x00) State.reset)) = some .inNotWritten := by decide
theorem witness_MeaninglessActionsFault_inOut : (acting .inOut (lsb [])).nextAction = some .inOut ∧
    (lsb []).STATUS = .idle ∧ faultOf (step (acting .inOut (lsb []))) = some .resultNotWritten := by decide
theorem witness_MeaninglessActionsFault_inTX : (acting (.inTX 0) (lsb [])).nextAction = some (.inTX 0) ∧
    (lsb []).TX.length ≤ 0 ∧ faultOf (step (acting (.inTX 0) (lsb []))) = some .noSuchFrame := by decide
theorem witness_MeaninglessActionsFault_flip_unwritten :
    (acting (.inFlip 1) State.reset).nextAction = some (.inFlip 1) ∧ State.reset.inWritten = false ∧
    faultOf (step (acting (.inFlip 1) State.reset)) = some .inNotWritten := by decide
theorem witness_MeaninglessActionsFault_flip_range : (acting (.inFlip 9) (lsb [0x41])).nextAction = some (.inFlip 9) ∧
    (lsb [0x41]).inWritten = true ∧ 8 * (lsb [0x41]).IN.length < 9 ∧
    faultOf (step (acting (.inFlip 9) (lsb [0x41]))) = some .flipOutOfRange := by decide
/-- A write of exactly BUF_CAP bytes. -/
theorem witness_DirectivesWriteIN_inBytes :
    (acting (.inBytes (List.replicate 22 1)) (blk .lsbFirst 22 [])).nextAction = some (.inBytes (List.replicate 22 1)) ∧
    (List.replicate 22 (1 : Byte)).length ≤ (blk .lsbFirst 22 []).params.bufCap := by decide
/-- The block after a completed FRM_WRAP of the empty sequence. -/
def wrapped : State := { lsb [] with STATUS := .ok, OUT := [0x7B, 0x7D] }
theorem witness_DirectivesWriteIN_inOut : (acting .inOut wrapped).nextAction = some .inOut ∧ wrapped.STATUS ≠ .idle ∧
    wrapped.OUT.length ≤ wrapped.params.bufCap := by decide
/-- The block after HAM_SEND of the empty payload. -/
def sent : State := { lsb [] with STATUS := .ok, TX := [[0x7B, 0x7D]] }
theorem witness_DirectivesWriteIN_inTX : (acting (.inTX 0) sent).nextAction = some (.inTX 0) ∧
    sent.TX[0]? = some [0x7B, 0x7D] ∧ [0x7B#8, 0x7D#8].length ≤ sent.params.bufCap := by decide
/-- The last stream position of IN. -/
theorem witness_DirectivesWriteIN_flip : (acting (.inFlip 8) (lsb [0x41])).nextAction = some (.inFlip 8) ∧
    (lsb [0x41]).inWritten = true ∧ 8 ≤ 8 * (lsb [0x41]).IN.length ∧
    (lsb [0x41]).IN.length ≤ (lsb [0x41]).params.bufCap := by decide
theorem witness_HostReadsHaveNoSideEffect : wrapped.inWritten = true ∧ wrapped.STATUS ≠ .idle ∧
    (acting (.read .OUT) wrapped).nextAction = some (.read .OUT) ∧
    hostValue .OUT (acting (.read .OUT) wrapped) = .ok (.seq [0x7B, 0x7D]) := by decide
theorem witness_ResetDirectiveClearsBlock : (acting .reset sent).nextAction = some .reset := by decide
theorem witness_ResetStateHoldsNoValues : (lsb []).STATUS = .idle ∧ State.reset.inWritten = false ∧
    ∃ t, exec .frmWrap (lsb []) = .next t := ⟨by decide, by decide, _, rfl⟩
/-- One action left, and none: the two sides of the end of the list. -/
theorem witness_RunEndsAfterLastAction : (acting .reset sent).pos < (acting .reset sent).program.length ∧
    (∃ t, step (acting .reset sent) = .next t) ∧ (lsb []).program.length ≤ (lsb []).pos :=
  ⟨by decide, ⟨_, rfl⟩, by decide⟩
theorem witness_OversizeIsRefused_inBytes :
    (acting (.inBytes (List.replicate 23 1)) (blk .lsbFirst 22 [])).nextAction = some (.inBytes (List.replicate 23 1)) ∧
    (blk .lsbFirst 22 []).params.bufCap < (List.replicate 23 (1 : Byte)).length := by decide
/-- A state no run reaches: OUT is longer than BUF_CAP. -/
theorem witness_OversizeIsRefused_inOut :
    (acting .inOut { blk .lsbFirst 1 [] with STATUS := .ok, OUT := [1, 2] }).nextAction = some .inOut ∧
    (blk .lsbFirst 1 []).params.bufCap < [1#8, 2#8].length := by decide
/-- A state no run reaches: a frame longer than BUF_CAP. -/
theorem witness_OversizeIsRefused_inTX :
    (acting (.inTX 0) { blk .lsbFirst 1 [] with TX := [[1, 2]] }).nextAction = some (.inTX 0) ∧
    (blk .lsbFirst 1 []).params.bufCap < [1#8, 2#8].length := by decide
theorem witness_OversizeIsRefused_frmWrap :
    (blk .lsbFirst 22 (List.replicate 21 1)).params.bufCap < (wrap (List.replicate 21 1)).length := by decide
theorem witness_OversizeIsRefused_hamEnc :
    (blk .lsbFirst 22 (List.replicate 22 0)).params.bufCap <
      (hamEncode .lsbFirst (blk .lsbFirst 22 (List.replicate 22 0)).IN).length := by decide +kernel
theorem witness_OversizeIsRefused_crcEnc :
    (blk .lsbFirst 22 (List.replicate 22 0)).params.bufCap <
      (crcEncode .lsbFirst (blk .lsbFirst 22 (List.replicate 22 0)).IN).length := by decide +kernel
theorem witness_OversizeIsRefused_growth : ∃ t, exec .hamEnc (lsb [0x41]) = .next t ∧
    (lsb [0x41]).IN.length < t.OUT.length := ⟨_, rfl, by decide⟩
theorem witness_OversizeIsRefused_others : (lsb [0x7B, 0x7D]).inWritten = true ∧
    (lsb [0x7B, 0x7D]).IN.length ≤ (lsb [0x7B, 0x7D]).params.bufCap ∧ Instr.crcProc ≠ .frmWrap ∧
    Instr.crcProc ≠ .hamEnc ∧ Instr.crcProc ≠ .crcEnc := by decide
theorem witness_CommandFrame : (∃ t, exec .hamEnc (lsb [0x41]) = .next t) ∧ ∃ t, exec .hamSend (lsb [0x41]) = .next t :=
  ⟨⟨_, rfl⟩, _, rfl⟩
theorem witness_CommandsReportTheirOutcomes_parity : ∃ t, exec .hamDec (lsb [0x80, 0x04]) = .next t ∧
    t.STATUS = .parityMismatch ∧ decodedUnit .hamDec (lsb [0x80, 0x04]).IN = some [0x80, 0x04] ∧
    mismatchSet (bitsOf .lsbFirst [0x80, 0x04]) ≠ [] := ⟨_, rfl, by decide, by decide, by decide⟩
theorem witness_CommandsReportTheirOutcomes_start : ∃ t, exec .crcProc (lsb []) = .next t ∧
    t.STATUS = .missingStartTag := ⟨_, rfl, by decide⟩
theorem witness_CommandsReportTheirOutcomes_stop : ∃ t, exec .frmUnwrap (lsb [0x7B]) = .next t ∧
    t.STATUS = .missingStopTag := ⟨_, rfl, by decide⟩
theorem witness_CommandsReportTheirOutcomes_checksum : ∃ t, exec .crcDec (lsb [0x41, 0xEB]) = .next t ∧
    t.STATUS = .checksumMismatch ∧ t.REM ≠ 0#15 := ⟨_, rfl, by decide, by decide⟩
theorem witness_CommandsReportTheirOutcomes_ok : (∃ t, exec .frmIsComplete (lsb [0x7B, 0x7D]) = .next t ∧
    t.STATUS = .ok ∧ t.FC = true) ∧ (∃ t, exec .crcProc (lsb [0x7B, 0x00, 0x7D]) = .next t ∧ t.STATUS = .ok ∧
    decodedUnit .crcProc (lsb [0x7B, 0x00, 0x7D]).IN = some [0x00]) ∧
    ∃ t, exec .hamDec (lsb [0x84, 0x04]) = .next t ∧ t.STATUS = .ok :=
  ⟨⟨_, rfl, by decide, by decide⟩, ⟨_, rfl, by decide, by decide⟩, _, rfl, by decide⟩
/-- The other trigger of CHECKSUM_MISMATCH: an empty unit. -/
theorem witness_CommandsReportTheirOutcomes_empty_unit : ∃ t, exec .crcProc (lsb [0x7B, 0x7D]) = .next t ∧
    t.STATUS = .checksumMismatch ∧ decodedUnit .crcProc (lsb [0x7B, 0x7D]).IN = some [] :=
  ⟨_, rfl, by decide, by decide⟩
theorem witness_CommandsReportTheirOutcomes_illegal : (acting (.cmd 0x0F) (lsb [])).nextAction = some (.cmd 0x0F) ∧
    0x0F ∉ legalWords ∧ (acting (.cmd 0x0F) (lsb [])).inWritten = true ∧
    ∃ t, step (acting (.cmd 0x0F) (lsb [])) = .next t := ⟨by decide, by decide, by decide, _, rfl⟩
/-- Two blocks with the same IN and different pasts. -/
theorem witness_ResultIsFunctionOfOperand : (lsb []).params = sent.params ∧ (lsb []).IN = sent.IN ∧
    (∃ t, exec .crcSend (lsb []) = .next t) ∧ ∃ t, exec .crcSend sent = .next t :=
  ⟨by decide, by decide, ⟨_, rfl⟩, _, rfl⟩
theorem witness_StepKeepsInvariant : (acting (.cmd 0x0E) (lsb [0x41])).inv = true ∧
    ∃ t, step (acting (.cmd 0x0E) (lsb [0x41])) = .next t := ⟨by decide, _, rfl⟩
/-- The two ends of BUF_CAP's range (R7). -/
theorem witness_ResetMeetsInvariant : Params.wf { bitOrder := .msbFirst, bufCap := 22 } = true ∧
    Params.wf Params.default = true := by decide
theorem witness_RemPacking : packRem [true] = 0x4000#15 ∧ 14 ≤ 14 := by decide
theorem witness_SynListsMismatchSet : (bitsOf .lsbFirst [0x80, 0x04]).length ≤ 8 * 4095 ∧
    synPositions (packSyn (syndrome (bitsOf .lsbFirst [0x80, 0x04]))) = [1, 2] := by decide
theorem witness_BitsOfFollowsBitOrder : [0x41#8][0]? = some 0x41#8 ∧ 7 ≤ 7 := by decide
theorem witness_FlipChangesOneBit : 7 < 8 * [0x41#8].length ∧ flipStreamBit .lsbFirst [0x41] 7 = [0xC1] := by decide
/-- The bound met exactly, and missed by one: eight plain bytes take 10, seven and a tag value take 11. -/
theorem witness_FrmWrapResult : (blk .lsbFirst 10 [1, 2, 3, 4, 5, 6, 7, 8]).inWritten = true ∧
    2 + 8 + [1#8, 2, 3, 4, 5, 6, 7, 8].countP (fun b => b == 0x7B#8 || b == 0x7D#8 || b == 0x5C#8) ≤ 10 ∧
    10 < 2 + 8 + [1#8, 2, 3, 4, 5, 6, 7, 0x7B].countP (fun b => b == 0x7B#8 || b == 0x7D#8 || b == 0x5C#8) := by decide
theorem witness_FrmIsCompleteResult : (lsb [0x7D]).inWritten = true ∧
    [0x7B#8, 0x7D] = [] ++ [0x7B, 0x7D] ∧ 0x7B#8 ≠ 0x5C#8 := by decide
theorem witness_FrmUnwrapResult : (lsb [0x7B, 0x41, 0x7D]).inWritten = true ∧
    (lsb [0x7B, 0x41, 0x7D]).IN.length ≤ (lsb [0x7B, 0x41, 0x7D]).params.bufCap ∧
    unwrap (lsb [0x7B, 0x41, 0x7D]).IN = .ok [0x41] ∧ unwrap (lsb []).IN = .error .missingStartTag ∧
    unwrap (lsb [0x7B]).IN = .error .missingStopTag := by decide
theorem witness_UnwrapReadsUpToStopTag : [(true, 0x7D#8), (false, 0x41#8)].all tokenReadable = true ∧
    unwrap ([0x7B#8] ++ [(true, 0x7D#8), (false, 0x41#8)].flatMap tokenBytes ++ [0x7D#8] ++ [0x99]) =
      .ok [0x7D, 0x41] ∧
    unwrap ([0x7B#8] ++ [(false, 0x41#8)].flatMap tokenBytes ++ [0x5C#8]) = .error .missingStopTag := by decide
theorem witness_CodewordLengthIsSmallest : parityCount 1 = Nat.log2 1 + 1 ∧ isPow2 (codewordLen 1) = false := by decide
theorem witness_HamEvenParity : isPow2 2 = true ∧ 2 ≤ (hamEncodeBits [true]).length := by decide
theorem witness_HamEncResult : (blk .lsbFirst 2 [0x41]).inWritten = true ∧
    (codewordLen (8 * (blk .lsbFirst 2 [0x41]).IN.length) + 7) / 8 ≤ (blk .lsbFirst 2 [0x41]).params.bufCap := by decide
theorem witness_CorrectionInvertsOneBit : 16 ≤ (bitsOf .lsbFirst [0x84, 0x84]).length ∧
    (bitsOf .lsbFirst [0x85, 0x84]).length < syndrome (bitsOf .lsbFirst [0x85, 0x84]) ∧
    8 * 1 ≤ (strip (bitsOf .lsbFirst [0x85, 0x84])).length := by decide
/-- The ends of the three ranges of R91. -/
theorem witness_PayloadLengthIsLargest : payloadLen 2 = 1 ∧ payloadLen 31 = 30 ∧ payloadLen 33 = 31 := by decide +kernel
theorem witness_HamDecResult : (lsb [0x80, 0x04]).inWritten = true ∧
    (lsb [0x80, 0x04]).IN.length ≤ (lsb [0x80, 0x04]).params.bufCap := by decide
/-- The last stream position, a padding bit. -/
theorem witness_HammingCorrectsEverySingleFlip : 16 ≤ 8 * (hamEncode .lsbFirst [0x41]).length ∧
    hamDecode .lsbFirst (flipStreamBit .lsbFirst (hamEncode .lsbFirst [0x41]) 15) = ([0x41], 16) := by decide
theorem witness_CrcEncResult : (blk .lsbFirst 3 [0x41]).inWritten = true ∧
    (blk .lsbFirst 3 [0x41]).IN.length + (crcChecksum .lsbFirst (blk .lsbFirst 3 [0x41]).IN).length ≤ 3 := by decide
theorem witness_CrcDecResult_accepted : (lsb [0x41, 0xEB, 0x0B]).inWritten = true ∧
    (lsb [0x41, 0xEB, 0x0B]).IN.length ≤ (lsb [0x41, 0xEB, 0x0B]).params.bufCap ∧ (lsb [0x41, 0xEB, 0x0B]).IN ≠ [] ∧
    ∀ j, j ≤ 14 → bbRead (crcDivide (bitsOf .lsbFirst [0x41, 0xEB, 0x0B])) j = false := by decide
theorem witness_CrcDecResult_rejected : (lsb [0x40, 0xEB, 0x0B]).inWritten = true ∧
    bbRead (crcDivide (bitsOf .lsbFirst [0x40, 0xEB, 0x0B])) 0 = true ∧ (lsb []).IN = [] := by decide
theorem witness_ChecksumForm : (crcChecksum .lsbFirst [0x3B]).length = 1 ∧ (crcChecksum .lsbFirst [0x41]).length ≠ 1 := by
  decide
theorem witness_CrcRejectsEverySingleFlip : 24 ≤ 8 * ([0x41#8] ++ crcChecksum .lsbFirst [0x41]).length ∧
    (crcDecode .lsbFirst (flipStreamBit .lsbFirst ([0x41#8] ++ crcChecksum .lsbFirst [0x41]) 23)).1 = none := by decide
theorem witness_ChecksumCountOnAcceptance_two : (crcAccept .lsbFirst ([0x41, 0xEB] ++ [0x0B])).1 = true ∧
    crcCount .lsbFirst ([0x41, 0xEB] ++ [0x0B]) = 2 := by decide
theorem witness_ChecksumCountOnAcceptance_one : (crcAccept .lsbFirst ([0x3B] ++ [0xB2])).1 = true ∧
    crcCount .lsbFirst ([0x3B] ++ [0xB2]) ≠ 2 := by decide
/-- R110's first collision, and a payload outside the set. -/
theorem witness_CrcRoundTripAndCollisions : crcCollides .lsbFirst [0x01, 0xB2] = true ∧
    crcCollides .msbFirst [0x01, 0x4D] = true ∧ crcCollides .lsbFirst [0x3B] = false := by decide
theorem witness_HamProcResult : (lsb [0x7B, 0x84, 0x04, 0x7D]).inWritten = true ∧
    (lsb [0x7B, 0x84, 0x04, 0x7D]).IN.length ≤ (lsb [0x7B, 0x84, 0x04, 0x7D]).params.bufCap ∧
    unwrap (lsb [0x7B, 0x84, 0x04, 0x7D]).IN = .ok [0x84, 0x04] ∧ unwrap (lsb []).IN = .error .missingStartTag ∧
    unwrap (lsb [0x7B]).IN = .error .missingStopTag := by decide
theorem witness_CrcProcResult : (lsb [0x7B, 0x00, 0x7D]).inWritten = true ∧
    (lsb [0x7B, 0x00, 0x7D]).IN.length ≤ (lsb [0x7B, 0x00, 0x7D]).params.bufCap ∧
    unwrap (lsb [0x7B, 0x00, 0x7D]).IN = .ok [0x00] ∧ (crcDecode .lsbFirst [0x00]).1 = some [] ∧
    unwrap (lsb [0x7B, 0x7D]).IN = .ok [] ∧ (crcDecode .lsbFirst []).1 = none := by decide
theorem witness_ChunksSplitPayload : [1#8] ≠ [] ∧ chunks (List.replicate 8 1) = [List.replicate 8 1] ∧
    chunks (List.replicate 9 1) = [List.replicate 8 1, [1]] := by decide
theorem witness_HamSendResult : (lsb [0x41]).inWritten = true := by decide
theorem witness_CrcSendResult : (msb []).inWritten = true := by decide
/-- A chunk outside the collision set and one in it; [0x06, 0x03] is the payload of U6 whose CRC unit ends in the
escape tag. -/
theorem witness_CleanChannelDelivers : [0x41#8] ∈ chunks [0x41] ∧ crcCollides .lsbFirst [0x41] = false ∧
    [0x01#8, 0xB2] ∈ chunks [0x01, 0xB2] ∧ crcCollides .lsbFirst [0x01, 0xB2] = true ∧
    (crcEncode .lsbFirst [0x06, 0x03]).getLast? = some 0x5C#8 ∧
    (hamEncode .msbFirst [0x00, 0x00, 0x00, 0x17]).getLast? = some 0x5C#8 := by decide +kernel
theorem witness_OneBitErrorOnChannel_hamming : [0x41#8].length ≤ 8 ∧ 3 ≤ 8 * (hamEncode .lsbFirst [0x41]).length ∧
    unwrap [0x7B, 0x80, 0x04, 0x7D] = .ok (flipStreamBit .lsbFirst (hamEncode .lsbFirst [0x41]) 2) := by decide
theorem witness_OneBitErrorOnChannel_crc : 1 ≤ 8 * (crcEncode .lsbFirst [0x41]).length ∧
    unwrap [0x7B, 0x40, 0xEB, 0x0B, 0x7D] = .ok (flipStreamBit .lsbFirst (crcEncode .lsbFirst [0x41]) 0) := by decide

end Sys2Proof.Tests
end

section
/-! PROOFS. The bits of a packed byte, what `BitsOf` holds at each index, what survives `BytesOf` (R37, R38), and from
them the flip of one stream bit (R14). -/

namespace Sys2Proof.Machine

/-- Distinct weights add without carries: the sum is the sum of `2^k` over the set of weights of the bits that are 1,
and a number is determined by that set. -/
theorem testBit_weightedSum {n : Nat} {weight : Nat → Nat} (hw : Set.InjOn weight (Finset.range n)) (bit : Nat → Bool)
    {j : Nat} (hj : j < n) : (weightedSum n weight bit).testBit (weight j) = bit j := by
  have hsum : weightedSum n weight bit =
      ∑ k ∈ ((Finset.range n).filter (bit · = true)).image weight, 2 ^ k := by
    rw [Finset.sum_image (hw.mono (Finset.coe_subset.2 (Finset.filter_subset _ _))), Finset.sum_filter]
    rfl
  have hmem : (weightedSum n weight bit).testBit (weight j) = true ↔
      weight j ∈ ((Finset.range n).filter (bit · = true)).image weight := by
    rw [← Nat.mem_bitIndices, ← List.mem_toFinset, hsum, Finset.toFinset_bitIndices_sum_two_pow]
  rw [Bool.eq_iff_iff, hmem, Finset.mem_image]
  constructor
  · rintro ⟨i, hi, hij⟩
    obtain ⟨hi, hbit⟩ := Finset.mem_filter.1 hi
    rwa [← hw hi (by simpa using hj) hij]
  · exact fun hbit => ⟨j, by simp [hj, hbit], rfl⟩

variable (o : BitOrder)

theorem bitWeight_injOn : Set.InjOn (bitWeight o) (Finset.range 8) := by
  intro i hi j hj hij
  simp only [Finset.coe_range, Set.mem_Iio] at hi hj
  cases o with
  | lsbFirst => exact hij
  | msbFirst => simp only [bitWeight] at hij; omega

theorem bitWeight_lt {j : Nat} (hj : j < 8) : bitWeight o j < 8 := by
  cases o with
  | lsbFirst => exact hj
  | msbFirst => simp only [bitWeight]; omega

/-- A packed byte holds the bit of each bit number at its weight (R38). -/
theorem getLsbD_packByte (bit : Nat → Bool) {j : Nat} (hj : j < 8) :
    (packByte o bit).getLsbD (bitWeight o j) = bit j := by
  rw [packByte, BitVec.getLsbD_ofNat, testBit_weightedSum (bitWeight_injOn o) bit hj, decide_eq_true (bitWeight_lt o hj),
    Bool.true_and]

@[simp] theorem bitsOf_nil : bitsOf o [] = [] := rfl

@[simp] theorem bitsOf_cons (x : Byte) (s : Bytes) : bitsOf o (x :: s) = byteBits o x ++ bitsOf o s := rfl

theorem bbRead_byteBits (x : Byte) {j : Nat} (hj : j < 8) : bbRead (byteBits o x) j = x.getLsbD (bitWeight o j) := by
  simp [bbRead, byteBits, hj]

theorem bbRead_append_left {a : BitBuffer} (b : BitBuffer) {i : Nat} (h : i < a.length) :
    bbRead (a ++ b) i = bbRead a i := List.getD_append _ _ _ _ h

theorem bbRead_append_right {a : BitBuffer} (b : BitBuffer) {i : Nat} (h : a.length ≤ i) :
    bbRead (a ++ b) i = bbRead b (i - a.length) := List.getD_append_right _ _ _ _ h

/-- `BitsOf(s)` at every index, beyond its end too (R35, R37). -/
theorem bbRead_bitsOf (s : Bytes) (i : Nat) :
    bbRead (bitsOf o s) i = (s.getD (i / 8) 0#8).getLsbD (bitWeight o (i % 8)) := by
  induction s generalizing i with
  | nil => simp [bbRead]
  | cons x s ih =>
    rw [bitsOf_cons]
    rcases Nat.lt_or_ge i 8 with hi | hi
    · rw [bbRead_append_left _ (by simpa using hi), bbRead_byteBits o x hi, Nat.div_eq_of_lt hi, Nat.mod_eq_of_lt hi,
        List.getD_cons_zero]
    · obtain ⟨i, rfl⟩ := Nat.exists_eq_add_of_le' hi
      rw [bbRead_append_right _ (by simp), byteBits_length, Nat.add_sub_cancel, ih, Nat.add_div_right _ (by decide),
        Nat.add_mod_right, List.getD_cons_succ]

/-- `BytesOf` loses no bit: the conversion back reads the same at every index, as padding bits are 0 (R38). -/
theorem bbRead_bitsOf_bytesOf (b : BitBuffer) (i : Nat) : bbRead (bitsOf o (bytesOf o b)) i = bbRead b i := by
  rcases Nat.lt_or_ge (i / 8) ((b.length + 7) / 8) with hi | hi
  · have hbyte : (bytesOf o b).getD (i / 8) 0#8 = packByte o fun j => bbRead b (8 * (i / 8) + j) := by
      simp [bytesOf, hi]
    rw [bbRead_bitsOf, hbyte, getLsbD_packByte o _ (Nat.mod_lt _ (by decide)), Nat.div_add_mod]
  · rw [bbRead_of_le _ (by simp; omega), bbRead_of_le _ (by omega)]

/-- A write below the length sets the bit in place (R36). -/
theorem bbWrite_of_lt {b : BitBuffer} {i : Nat} (h : i < b.length) (v : Bool) : bbWrite b i v = b.set i v := if_pos h

/-- Inverting the bit at one index inverts what is read there and nothing else. -/
theorem bbRead_bbWrite_not (b : BitBuffer) (t i : Nat) :
    bbRead (bbWrite b t (!bbRead b t)) i = (bbRead b i ^^ decide (i = t)) := by
  rcases eq_or_ne i t with rfl | hi
  · simp
  · simp [bbRead_bbWrite_ne b _ hi, hi]

/-- A flip of a stream bit inverts what `BitsOf` reads at that index and nothing else (R14). -/
theorem bbRead_bitsOf_flipStreamBit (s : Bytes) (t i : Nat) :
    bbRead (bitsOf o (flipStreamBit o s t)) i = (bbRead (bitsOf o s) i ^^ decide (i = t)) := by
  rw [flipStreamBit, bbRead_bitsOf_bytesOf, bbRead_bbWrite_not]

end Sys2Proof.Machine

namespace Sys2Proof.Proofs
open Sys2Proof.Machine

/-- Settles O25: a flip is a write of the inverted bit, and `BytesOf` carries every bit over. -/
theorem flipChangesOneBit : Obligations.FlipChangesOneBit := by
  intro o s t ht
  have hset : flipStreamBit o s t = bytesOf o ((bitsOf o s).set t (!bbRead (bitsOf o s) t)) := by
    rw [flipStreamBit, bbWrite_of_lt (by simpa using ht)]
  exact ⟨flipStreamBit_length o s ht, hset, bbRead_bitsOf_flipStreamBit o s t⟩

end Sys2Proof.Proofs
end

section
/-! PROOFS. The power-of-two test (R12). -/

namespace Sys2Proof.Machine

theorem isPow2_zero : isPow2 0 = false := rfl

/-- From 1 on the test is the library's criterion for powers of two, `i & (i - 1) = 0`. -/
theorem isPow2_iff (i : Nat) : isPow2 i = true ↔ ∃ t, i = 2 ^ t := by
  rcases Nat.eq_zero_or_pos i with rfl | hi
  · have hne (t : Nat) : 0 ≠ 2 ^ t := (Nat.two_pow_pos t).ne
    simp [isPow2_zero, hne]
  · simpa [isPow2, Nat.isPowerOfTwo, Nat.one_le_iff_ne_zero, hi.ne'] using Nat.and_sub_one_eq_zero_iff_isPowerOfTwo hi.ne'

end Sys2Proof.Machine

namespace Sys2Proof.Proofs
open Sys2Proof.Machine

/-- Settles O32, by the cases `i = 0` and `1 ≤ i` of `isPow2_iff`. -/
theorem powerOfTwoTest : Obligations.PowerOfTwoTest := isPow2_iff

end Sys2Proof.Proofs
end

section
/-! PROOFS. A command's results come from its rule alone (R18), and no register holds a value before the first
command completes (R31). -/

namespace Sys2Proof.Machine

variable {s t : State} {i : Instr}

/-- The frames are the rule's, so they too depend on the parameters and IN alone (R18). -/
theorem exec_results (h : exec i s = .next t) :
    t.STATUS = (ruleOf i s.params s.IN).STATUS ∧ t.OUT = (ruleOf i s.params s.IN).OUT ∧
    t.FC = (ruleOf i s.params s.IN).FC ∧ t.SYN = (ruleOf i s.params s.IN).SYN ∧
    t.REM = (ruleOf i s.params s.IN).REM ∧ t.TX = s.TX ++ (ruleOf i s.params s.IN).frames := by
  obtain ⟨-, -, rfl⟩ := exec_eq_next.mp h
  simp

theorem exec_of_not_inWritten (i : Instr) (h : s.inWritten = false) : exec i s = .fault .inNotWritten := by
  rw [exec_eq_runCommand]
  exact runCommand_eq_fault.mpr ⟨h, rfl⟩

/-! ### No rule leaves IDLE (R22) -/

theorem FrameFailure.status_ne_idle (e : FrameFailure) : e.status ≠ .idle := by
  cases e <;> decide

theorem hamDecRule_STATUS_ne_idle (p : Params) (x : Bytes) : (hamDecRule p x).STATUS ≠ .idle := by
  simp only [hamDecRule, finish_STATUS]
  split <;> decide

theorem crcDecRule_STATUS_ne_idle (p : Params) (y : Bytes) : (crcDecRule p y).STATUS ≠ .idle := by
  unfold crcDecRule
  split <;> simp

theorem frmUnwrapRule_STATUS_ne_idle (p : Params) (f : Bytes) : (frmUnwrapRule p f).STATUS ≠ .idle := by
  unfold frmUnwrapRule
  split
  · exact FrameFailure.status_ne_idle _
  · simp

theorem processFrame_STATUS_ne_idle (codec : Codec) (p : Params) (buf : Bytes) :
    (processFrame codec p buf).STATUS ≠ .idle := by
  unfold processFrame
  split
  · exact FrameFailure.status_ne_idle _
  · cases codec with
    | hamming => exact hamDecRule_STATUS_ne_idle p _
    | crc => exact crcDecRule_STATUS_ne_idle p _

theorem ruleOf_STATUS_ne_idle (i : Instr) (p : Params) (x : Bytes) : (ruleOf i p x).STATUS ≠ .idle := by
  cases i with
  | frmUnwrap => exact frmUnwrapRule_STATUS_ne_idle p x
  | hamDec => exact hamDecRule_STATUS_ne_idle p x
  | crcDec => exact crcDecRule_STATUS_ne_idle p x
  | hamProc | crcProc => exact processFrame_STATUS_ne_idle _ p x
  | frmWrap | frmIsComplete | hamEnc | hamSend | crcEnc | crcSend => exact Status.noConfusion

theorem exec_STATUS_ne_idle (h : exec i s = .next t) : t.STATUS ≠ .idle := by
  obtain ⟨hstatus, -⟩ := exec_results h
  exact hstatus ▸ ruleOf_STATUS_ne_idle i s.params s.IN

/-! ### Reads of the result registers (R31) -/

theorem State.resultsWritten_iff : s.resultsWritten = true ↔ s.STATUS ≠ .idle := bne_iff_ne

theorem hostValue_result_of_idle (h : s.STATUS = .idle) {r : HostReg} (hr : r ∈ [HostReg.OUT, .FC, .SYN, .REM]) :
    hostValue r s = .error .resultNotWritten := by
  have hw : ¬ s.resultsWritten = true := by simpa [State.resultsWritten_iff] using h
  simp only [List.mem_cons, List.not_mem_nil, or_false] at hr
  rcases hr with rfl | rfl | rfl | rfl <;> exact if_neg hw

theorem hostValue_results_of_ne_idle (h : s.STATUS ≠ .idle) :
    hostValue .OUT s = .ok (.seq s.OUT) ∧ hostValue .FC s = .ok (.flag s.FC) ∧
    hostValue .SYN s = .ok (.syn s.SYN) ∧ hostValue .REM s = .ok (.rem s.REM) := by
  have hw := State.resultsWritten_iff.mpr h
  exact ⟨if_pos hw, if_pos hw, if_pos hw, if_pos hw⟩

end Sys2Proof.Machine

namespace Sys2Proof.Proofs
open Sys2Proof.Machine

/-- Settles O17: both runs apply the effect of one rule on the same parameters and IN, whose frames are the witness. -/
theorem resultIsFunctionOfOperand : Obligations.ResultIsFunctionOfOperand := by
  intro i s s' t t' hparams hIN ht ht'
  obtain ⟨hSTATUS, hOUT, hFC, hSYN, hREM, hTX⟩ := exec_results ht
  obtain ⟨hSTATUS', hOUT', hFC', hSYN', hREM', hTX'⟩ := exec_results ht'
  rw [← hparams, ← hIN] at hSTATUS' hOUT' hFC' hSYN' hREM' hTX'
  exact ⟨hSTATUS.trans hSTATUS'.symm, hOUT.trans hOUT'.symm, hFC.trans hFC'.symm, hSYN.trans hSYN'.symm,
    hREM.trans hREM'.symm, _, hTX, hTX'⟩

/-- Settles O12: reads go by whether STATUS is IDLE, which no completed command leaves, and commands by whether IN
was written. -/
theorem resetStateHoldsNoValues : Obligations.ResetStateHoldsNoValues :=
  ⟨fun _ => ⟨rfl, rfl, rfl, fun _ hr => hostValue_result_of_idle rfl hr, fun i => exec_of_not_inWritten i rfl⟩,
    fun _ _ hr h => hostValue_result_of_idle h hr,
    fun i _ h => exec_of_not_inWritten i h,
    fun _ _ _ h => hostValue_results_of_ne_idle (exec_STATUS_ne_idle h)⟩

end Sys2Proof.Proofs
end

section
/-! PROOFS. Where `BitsOf` puts each bit (R37), and that the two conversions undo each other (R39). A byte and a bit
buffer are determined by what is read from them, so both round trips follow from `bbRead_bitsOf_bytesOf`. -/

namespace Sys2Proof.Machine

/-- Two buffers of one length that read the same at every index are equal. -/
theorem bitBuffer_ext {a b : BitBuffer} (hlen : a.length = b.length) (hread : ∀ i, bbRead a i = bbRead b i) :
    a = b := by
  refine List.ext_getElem hlen fun i ha hb => ?_
  simpa [bbRead, ha, hb] using hread i

/-- Zero bits after the end read as the indexes beyond the end do (R35). -/
theorem bbRead_append_replicate_false (b : BitBuffer) (n i : Nat) :
    bbRead (b ++ List.replicate n false) i = bbRead b i := by
  rcases Nat.lt_or_ge i b.length with hi | hi
  · exact bbRead_append_left _ hi
  · rw [bbRead_append_right _ hi, bbRead_of_le _ hi]
    exact List.getElem?_getD_replicate_default_eq ..

/-- `BytesOf` fills the last byte up with zero bits, and `BitsOf` gives them back (R38, R39). -/
theorem bitsOf_bytesOf (o : BitOrder) (b : BitBuffer) :
    bitsOf o (bytesOf o b) = b ++ List.replicate ((8 - b.length % 8) % 8) false := by
  refine bitBuffer_ext ?_ fun i => ?_
  · simp only [bitsOf_length, bytesOf_length, List.length_append, List.length_replicate]
    omega
  · rw [bbRead_bitsOf_bytesOf, bbRead_append_replicate_false]

/-- Each weight of a byte is that of a bit number: in both orders the weight map is its own inverse. -/
theorem bitWeight_bitWeight (o : BitOrder) {j : Nat} (hj : j < 8) : bitWeight o (bitWeight o j) = j := by
  cases o with
  | lsbFirst => rfl
  | msbFirst => simp only [bitWeight]; omega

theorem byteBits_injective (o : BitOrder) : Function.Injective (byteBits o) := by
  intro x y hxy
  refine BitVec.eq_of_getLsbD_eq fun i hi => ?_
  have hw := bitWeight_lt o hi
  rw [← bitWeight_bitWeight o hi, ← bbRead_byteBits o x hw, hxy, bbRead_byteBits o y hw]

theorem bitsOf_injective (o : BitOrder) : Function.Injective (bitsOf o) := by
  intro s t hst
  induction s generalizing t with
  | nil =>
    have hlen := congrArg List.length hst
    exact (List.length_eq_zero_iff.mp (by simpa using hlen.symm)).symm
  | cons x s ih =>
    cases t with
    | nil => simpa using congrArg List.length hst
    | cons y t =>
      obtain ⟨hbyte, hrest⟩ := List.append_inj hst (by simp)
      rw [byteBits_injective o hbyte, ih hrest]

/-- The bits of whole bytes need no padding (R39). -/
@[simp] theorem bytesOf_bitsOf (o : BitOrder) (s : Bytes) : bytesOf o (bitsOf o s) = s :=
  bitsOf_injective o (by simp [bitsOf_bytesOf])

/-- `BitsOf(s)` at bit number `j` of byte `k` (R37). -/
theorem bbRead_bitsOf_byte (o : BitOrder) {s : Bytes} {k : Nat} {b : Byte} (hb : s[k]? = some b) {j : Nat}
    (hj : j ≤ 7) : bbRead (bitsOf o s) (8 * k + j) = b.getLsbD (bitWeight o j) := by
  have hdiv : (8 * k + j) / 8 = k := by omega
  have hmod : (8 * k + j) % 8 = j := by omega
  rw [bbRead_bitsOf, hdiv, hmod, List.getD, hb, Option.getD_some]

end Sys2Proof.Machine

namespace Sys2Proof.Proofs
open Sys2Proof.Machine

/-- Settles O23: the two reads are `bbRead_bitsOf_byte` with the weights of the two orders. -/
theorem bitsOfFollowsBitOrder : Obligations.BitsOfFollowsBitOrder :=
  fun s => ⟨fun o => bitsOf_length o s, fun _ _ _ hb hj => ⟨bbRead_bitsOf_byte .lsbFirst hb hj,
    bbRead_bitsOf_byte .msbFirst hb hj⟩⟩

/-- Settles O24: `BitsOf` after `BytesOf` is a matter of reads, and the other direction follows as `BitsOf` is
injective. -/
theorem conversionsRoundTrip : Obligations.ConversionsRoundTrip :=
  fun o => ⟨bytesOf_bitsOf o, bitsOf_bytesOf o⟩

end Sys2Proof.Proofs
end

section
/-! PROOFS. The capacity of IN and OUT (R45): what a write of IN and a command do at BUF_CAP, and how long the OUT of
each command's rule is beside IN. -/

namespace Sys2Proof.Machine

variable {s : State}

/-! ### Writes of IN -/

theorem hostWriteIN_of_lt {x : Bytes} (h : s.params.bufCap < x.length) : hostWriteIN x s = .refused .inTooLong :=
  if_neg (Nat.not_le.mpr h)

theorem step_inBytes {x : Bytes} (h : s.nextAction = some (.inBytes x)) : step s = hostWriteIN x s.advance := by
  unfold step
  rw [h]

theorem step_inOut (h : s.nextAction = some .inOut) (hst : s.STATUS ≠ .idle) :
    step s = hostWriteIN s.OUT s.advance := by
  have hw : s.advance.resultsWritten = true := State.resultsWritten_iff.mpr hst
  unfold step
  rw [h]
  exact if_pos hw

theorem step_inTX {k : Nat} {f : Bytes} (h : s.nextAction = some (.inTX k)) (hf : s.TX[k]? = some f) :
    step s = hostWriteIN f s.advance := by
  unfold step
  rw [h]
  simp [hostInTX, hf]

/-! ### Commands -/

/-- A command is refused exactly when IN was written and the OUT of its rule does not fit. -/
theorem exec_eq_refused {i : Instr} {r : Refusal} : exec i s = .refused r ↔
    s.inWritten = true ∧ s.params.bufCap < (ruleOf i s.params s.IN).OUT.length ∧ r = .outTooLong := by
  rw [exec_eq_runCommand, runCommand_eq_refused]

theorem exec_of_OUT_le {i : Instr} (hw : s.inWritten = true)
    (h : (ruleOf i s.params s.IN).OUT.length ≤ s.params.bufCap) :
    exec i s = .next (s.applyEffect (ruleOf i s.params s.IN)) :=
  exec_eq_next.mpr ⟨hw, h, rfl⟩

theorem exec_of_lt_OUT {i : Instr} (hw : s.inWritten = true)
    (h : s.params.bufCap < (ruleOf i s.params s.IN).OUT.length) : exec i s = .refused .outTooLong :=
  exec_eq_refused.mpr ⟨hw, h, rfl⟩

/-! ### Framer lengths -/

theorem stuffByte_length_le (b : Byte) : (stuffByte b).length ≤ 2 := by
  unfold stuffByte
  split <;> simp

/-- Every byte of the middle region takes at most two, and the two tags one each (R71). -/
theorem wrap_length_le (x : Bytes) : (wrap x).length ≤ 2 * x.length + 2 := by
  have hmiddle : (x.flatMap stuffByte).length ≤ 2 * x.length := by
    induction x with
    | nil => simp
    | cons b x ih =>
      have hb := stuffByte_length_le b
      simp only [List.flatMap_cons, List.length_append, List.length_cons]
      omega
  simp only [wrap, List.length_cons, List.length_append, List.length_nil]
  omega

theorem map_cons_eq_ok {v : Byte} {r : Except FrameFailure Bytes} {m : Bytes} (h : r.map (v :: ·) = .ok m) :
    ∃ m', r = .ok m' ∧ m = v :: m' := by
  cases r with
  | error e => cases h
  | ok m' => exact ⟨m', rfl, (Except.ok.inj h).symm⟩

/-- The scan uses up the stop tag beside the bytes it copies (R75). -/
theorem unwrapScan_length_lt {x m : Bytes} (h : unwrapScan x = .ok m) : m.length < x.length := by
  induction x using unwrapScan.induct generalizing m with
  | case1 => cases h
  | case2 => rw [unwrapScan_dangling] at h; cases h
  | case3 => rw [unwrapScan_stop] at h; cases h; simp
  | case4 b hesc hstop => rw [unwrapScan_plain hesc hstop] at h; cases h
  | case5 v rest ih =>
    rw [unwrapScan_escape] at h
    obtain ⟨m', hm', rfl⟩ := map_cons_eq_ok h
    have := ih hm'
    simp only [List.length_cons]
    omega
  | case6 v rest hesc =>
    rw [unwrapScan_stop] at h
    cases h
    simp
  | case7 b v rest hesc hstop ih =>
    rw [unwrapScan_plain hesc hstop] at h
    obtain ⟨m', hm', rfl⟩ := map_cons_eq_ok h
    have := ih hm'
    simp only [List.length_cons] at this ⊢
    omega

theorem unwrap_length_le {f m : Bytes} (h : unwrap f = .ok m) : m.length ≤ f.length := by
  unfold unwrap at h
  split at h
  · cases h
  · split at h
    · have := unwrapScan_length_lt h
      simp only [List.length_cons]
      omega
    · cases h

/-! ### Hamming lengths -/

/-- The number of powers of two from 1 to `q` is `Nat.size q`: it grows at each of them. -/
theorem size_lt_size_succ {q : Nat} (h : isPow2 (q + 1) = true) : q.size < (q + 1).size := by
  obtain ⟨t, ht⟩ := (isPow2_iff _).mp h
  have hq : q.size ≤ t := Nat.size_le.mpr (by omega)
  have hq' : t < (q + 1).size := Nat.lt_size.mpr ht.ge
  omega

/-- The placement walk ends at the position `codewordLenFrom` counts to: both take the same steps (R83, R84). -/
theorem placeFrom_length (fuel q : Nat) (d : BitBuffer) :
    q + (placeFrom fuel q d).length = codewordLenFrom fuel q d.length := by
  induction fuel generalizing q d with
  | zero => cases d <;> rfl
  | succ fuel ih =>
    cases d with
    | nil => rfl
    | cons b d =>
      rw [placeFrom, List.length_cons, codewordLenFrom]
      split
      · rw [← List.length_cons, ← ih (q + 1) (b :: d), List.length_cons]; omega
      · rw [← ih (q + 1) d, List.length_cons]; omega

theorem placeData_length (d : BitBuffer) : (placeData d).length = codewordLen d.length := by
  simpa [placeData, codewordLen] using placeFrom_length (2 * d.length + 1) 0 d

theorem mem_doublingsFrom {fuel p n x : Nat} (hp : 0 < p) (hx : x ∈ doublingsFrom fuel p n) : 0 < x ∧ x ≤ n := by
  induction fuel generalizing p with
  | zero => cases hx
  | succ fuel ih =>
    rw [doublingsFrom] at hx
    split at hx
    · rcases List.mem_cons.mp hx with rfl | hx
      · exact ⟨hp, by assumption⟩
      · exact ih (by omega) hx
    · cases hx

theorem mem_parityPositions {n x : Nat} (hx : x ∈ parityPositions n) : 0 < x ∧ x ≤ n :=
  mem_doublingsFrom Nat.one_pos hx

/-- The parity bits are written inside the codeword, so they do not lengthen it (R84). -/
theorem hamEncodeBits_length (d : BitBuffer) : (hamEncodeBits d).length = codewordLen d.length := by
  rw [← placeData_length]
  refine List.foldlRecOn (motive := fun c : BitBuffer => c.length = (placeData d).length) _ _ rfl fun c hc p hp => ?_
  obtain ⟨hpos, hle⟩ := mem_parityPositions hp
  rw [bbWrite_length]
  omega

theorem hamEncode_length (o : BitOrder) (x : Bytes) : (hamEncode o x).length = codewordBytes x.length := by
  rw [hamEncode, bytesOf_length, hamEncodeBits_length, bitsOf_length, codewordBytes]

/-- A walk passes the data bits and at most the powers of two on its way. -/
theorem codewordLenFrom_add_size_le (fuel q m : Nat) :
    codewordLenFrom fuel q m + q.size ≤ q + m + (codewordLenFrom fuel q m).size := by
  induction fuel generalizing q m with
  | zero => cases m <;> simp only [codewordLenFrom] <;> omega
  | succ fuel ih =>
    cases m with
    | zero => simp only [codewordLenFrom]; omega
    | succ m =>
      rw [codewordLenFrom]
      split
      · have := ih (q + 1) (m + 1)
        have := size_lt_size_succ ‹_›
        omega
      · have := ih (q + 1) m
        have := Nat.size_le_size (Nat.le_add_right q 1)
        omega

theorem codewordLen_le_add_size (m : Nat) : codewordLen m ≤ m + (codewordLen m).size := by
  simpa [codewordLen] using codewordLenFrom_add_size_le (2 * m + 1) 0 m

/-- A codeword of BUF_CAP's largest payload ends below position 2^16, so it has at most 16 parity bits. -/
theorem codewordLen_le {m : Nat} (hm : m ≤ 8 * 4095) : codewordLen m ≤ m + 16 := by
  have hn := codewordLen_le_add_size m
  rcases Nat.lt_or_ge 16 (codewordLen m).size with hsize | hsize
  · obtain ⟨j, hj⟩ := Nat.exists_eq_add_of_lt hsize
    have hpow : 2 ^ (16 + j) ≤ codewordLen m := Nat.lt_size.mp (by omega)
    have hlin : j < 2 ^ j := Nat.lt_two_pow_self
    rw [Nat.pow_add] at hpow
    omega
  · omega

theorem hamEncode_length_le (o : BitOrder) {x : Bytes} (hx : x.length ≤ 4095) :
    (hamEncode o x).length ≤ x.length + 2 := by
  have := codewordLen_le (Nat.mul_le_mul_left 8 hx)
  rw [hamEncode_length, codewordBytes]
  omega

theorem largestPayload_le (B bound : Nat) : largestPayload B bound ≤ bound := by
  induction bound with
  | zero => exact Nat.le_refl 0
  | succ k ih =>
    rw [largestPayload]
    split
    · exact Nat.le_refl _
    · exact Nat.le_succ_of_le ih

theorem payloadLen_le (B : Nat) : payloadLen B ≤ B := largestPayload_le B B

theorem hamDecode_length_le (o : BitOrder) (x : Bytes) : (hamDecode o x).1.length ≤ x.length := by
  have := payloadLen_le x.length
  simp only [hamDecode, bytesOf_length, List.length_take]
  omega

/-! ### CRC lengths -/

theorem crcChecksum_length_le (o : BitOrder) (x : Bytes) : (crcChecksum o x).length ≤ 2 := by
  simp only [crcChecksum]
  split <;> simp

theorem crcEncode_length_le (o : BitOrder) (x : Bytes) : (crcEncode o x).length ≤ x.length + 2 := by
  rw [crcEncode, List.length_append]
  exact Nat.add_le_add_left (crcChecksum_length_le o x) _

/-- A decoded payload is the sequence without its checksum bytes (R105). -/
theorem crcDecode_length_le {o : BitOrder} {y payload : Bytes} (h : (crcDecode o y).1 = some payload) :
    payload.length ≤ y.length := by
  unfold crcDecode at h
  split at h
  split at h
  · cases h
  · split at h
    · cases h
    · obtain rfl := Option.some.inj h
      exact List.length_take_le' _ _

/-! ### The OUT of each rule -/

variable (p : Params) (x : Bytes)

theorem frmUnwrapRule_OUT_length_le : (frmUnwrapRule p x).OUT.length ≤ x.length := by
  unfold frmUnwrapRule
  split
  · exact Nat.zero_le _
  · exact unwrap_length_le ‹_›

theorem hamDecRule_OUT_length_le : (hamDecRule p x).OUT.length ≤ x.length := hamDecode_length_le p.bitOrder x

theorem crcDecRule_OUT_length_le : (crcDecRule p x).OUT.length ≤ x.length := by
  unfold crcDecRule
  split
  · exact Nat.zero_le _
  · next hdec => exact crcDecode_length_le (congrArg Prod.fst hdec)

theorem processFrame_OUT_length_le (codec : Codec) : (processFrame codec p x).OUT.length ≤ x.length := by
  unfold processFrame
  split
  · exact Nat.zero_le _
  · next m hm =>
    refine Nat.le_trans ?_ (unwrap_length_le hm)
    cases codec with
    | hamming => exact hamDecRule_OUT_length_le p m
    | crc => exact crcDecRule_OUT_length_le p m

/-- Only FRM_WRAP, HAM_ENC and CRC_ENC can have an OUT longer than IN (R45). -/
theorem ruleOf_OUT_length_le {i : Instr} (hwrap : i ≠ .frmWrap) (hham : i ≠ .hamEnc) (hcrc : i ≠ .crcEnc) :
    (ruleOf i p x).OUT.length ≤ x.length := by
  cases i with
  | frmWrap | hamEnc | crcEnc => contradiction
  | frmIsComplete | hamSend | crcSend => exact Nat.zero_le _
  | frmUnwrap => exact frmUnwrapRule_OUT_length_le p x
  | hamDec => exact hamDecRule_OUT_length_le p x
  | crcDec => exact crcDecRule_OUT_length_le p x
  | hamProc | crcProc => exact processFrame_OUT_length_le p x _

/-! ### Completion and refusal (R45) -/

/-- After IN was written, a command is refused for its OUT or completes with one that fits. -/
theorem exec_refused_or_OUT_le (i : Instr) (hw : s.inWritten = true) :
    exec i s = .refused .outTooLong ∨ ∃ t, exec i s = .next t ∧ t.OUT.length ≤ s.params.bufCap := by
  rcases Nat.lt_or_ge s.params.bufCap (ruleOf i s.params s.IN).OUT.length with h | h
  · exact .inl (exec_of_lt_OUT hw h)
  · exact .inr ⟨_, exec_of_OUT_le hw h, h⟩

/-- A command whose OUT is longer than IN is one of the three that can outgrow it. -/
theorem instr_of_IN_lt_OUT {t : State} {i : Instr} (h : exec i s = .next t) (hlt : s.IN.length < t.OUT.length) :
    i = .frmWrap ∨ i = .hamEnc ∨ i = .crcEnc := by
  obtain ⟨-, -, rfl⟩ := exec_eq_next.mp h
  by_contra hi
  simp only [not_or] at hi
  obtain ⟨hwrap, hham, hcrc⟩ := hi
  exact absurd (ruleOf_OUT_length_le s.params s.IN hwrap hham hcrc) (Nat.not_le.mpr hlt)

end Sys2Proof.Machine

namespace Sys2Proof.Proofs
open Sys2Proof.Machine

/-- Settles O14: each write of IN and each command goes by the length at BUF_CAP, and the lengths are those of the
rules' OUT. -/
theorem oversizeIsRefused : Obligations.OversizeIsRefused :=
  ⟨fun _ _ ha hlt => (step_inBytes ha).trans (hostWriteIN_of_lt hlt),
    fun _ ha hst hlt => (step_inOut ha hst).trans (hostWriteIN_of_lt hlt),
    fun _ _ _ ha hf hlt => (step_inTX ha hf).trans (hostWriteIN_of_lt hlt),
    fun _ i hw => exec_refused_or_OUT_le i hw,
    fun _ hw => ⟨exec_of_lt_OUT (i := .frmWrap) hw, exec_of_lt_OUT (i := .hamEnc) hw,
      exec_of_lt_OUT (i := .crcEnc) hw⟩,
    fun _ _ _ h hlt => instr_of_IN_lt_OUT h hlt,
    fun s _ hw hIN hwrap hham hcrc =>
      ⟨_, exec_of_OUT_le hw (Nat.le_trans (ruleOf_OUT_length_le s.params s.IN hwrap hham hcrc) hIN)⟩,
    wrap_length_le,
    fun o x hx => ⟨hamEncode_length_le o hx, crcEncode_length_le o x⟩⟩

end Sys2Proof.Proofs
end

section
/-! PROOFS. The fields of a command word determine it (R54), so the decoder accepts exactly the encoded words, which
are the legal ones (R56), and a step that writes any other word has the one outcome of R127. -/

namespace Sys2Proof.Laws.EncodedFields

/-- The per-command facts as one, for proofs about every command. -/
theorem statement (i : Instr) : Statement i := by
  cases i with
  | frmWrap => exact frmWrap
  | frmIsComplete => exact frmIsComplete
  | frmUnwrap => exact frmUnwrap
  | hamEnc => exact hamEnc
  | hamDec => exact hamDec
  | hamProc => exact hamProc
  | hamSend => exact hamSend
  | crcEnc => exact crcEnc
  | crcDec => exact crcDec
  | crcProc => exact crcProc
  | crcSend => exact crcSend

end Sys2Proof.Laws.EncodedFields

namespace Sys2Proof
open Sys2Proof.Machine Sys2Proof.Laws.EncodedFields

variable {w : Byte} {i : Instr}

/-! ### The fields of a word (R54) -/

/-- RES, C and OP make up the whole word. -/
theorem toNat_eq_fields (w : Byte) : w.toNat = 16 * resField w + 8 * (codecBit w).toNat + opField w := by
  have hC : (codecBit w).toNat = w.toNat / 8 % 2 := by
    rw [codecBit, ← BitVec.testBit_toNat, Nat.toNat_testBit]
  rw [hC, resField, opField]
  omega

theorem eq_of_fields_eq {v : Byte} (hres : resField w = resField v) (hop : opField w = opField v)
    (hc : codecBit w = codecBit v) : w = v :=
  BitVec.eq_of_toNat_eq (by rw [toNat_eq_fields w, toNat_eq_fields v, hres, hop, hc])

theorem resField_of_wordWellFormed (h : wordWellFormed w = true) : resField w = 0 := by
  by_contra hres
  simp [wordWellFormed, checkWord, hres] at h

/-! ### The decoder on the encoder's words (R55, R56) -/

theorem selectInstr_eq_some_iff {op : Nat} {c : Bool} : selectInstr op c = some i ↔ rowFields i = (op, c) := by
  constructor
  · intro h
    unfold selectInstr at h
    split at h <;> cases h <;> rfl
  · intro h
    obtain ⟨rfl, rfl⟩ := Prod.mk.inj h.symm
    cases i <;> rfl

theorem decodeWord_eq_ok_iff_fields :
    decodeWord w = .ok i ↔ wordWellFormed w = true ∧ rowFields i = (opField w, codecBit w) := by
  rw [wordWellFormed, Option.isNone_iff_eq_none, ← selectInstr_eq_some_iff, decodeWord]
  split
  · simp [*]
  · split <;> simp [*]

/-- A command word is decoded exactly to the command that encodes to it. -/
theorem decodeWord_eq_ok_iff : decodeWord w = .ok i ↔ w = encode i := by
  obtain ⟨hwf, hres, hrow⟩ := statement i
  rw [decodeWord_eq_ok_iff_fields]
  constructor
  · rintro ⟨hw, hfields⟩
    obtain ⟨hop, hc⟩ := Prod.mk.inj (hrow.trans hfields)
    exact eq_of_fields_eq ((resField_of_wordWellFormed hw).trans hres.symm) hop.symm hc.symm
  · rintro rfl
    exact ⟨hwf, hrow.symm⟩

@[simp] theorem decodeWord_encode (i : Instr) : decodeWord (encode i) = .ok i := decodeWord_eq_ok_iff.mpr rfl

theorem legalWords_eq_map_encode : legalWords = allInstrs.map encode := rfl

theorem mem_allInstrs (i : Instr) : i ∈ allInstrs := by
  cases i <;> decide

theorem exists_decodeWord_eq_ok_iff : (∃ i, decodeWord w = .ok i) ↔ w ∈ legalWords := by
  simp only [decodeWord_eq_ok_iff, legalWords_eq_map_encode, List.mem_map, mem_allInstrs, true_and, eq_comm (a := w)]

theorem exists_decodeWord_eq_error (h : w ∉ legalWords) : ∃ e, decodeWord w = .error e := by
  cases hw : decodeWord w with
  | error e => exact ⟨e, rfl⟩
  | ok i => exact absurd (exists_decodeWord_eq_ok_iff.mp ⟨i, hw⟩) h

end Sys2Proof

namespace Sys2Proof.Machine

/-! ### The step on a command word (R53, R58) -/

variable {s : State} {w : Byte}

theorem step_cmd (h : s.nextAction = some (.cmd w)) : step s = writeCommandWord w s.advance := by
  unfold step
  rw [h]

theorem writeCommandWord_of_notMem_legalWords (h : w ∉ legalWords) (s : State) :
    writeCommandWord w s = .next ((s.writeCMD w).applyEffect (fail .illegalCommand)) := by
  obtain ⟨e, he⟩ := exists_decodeWord_eq_error h
  unfold writeCommandWord
  rw [he]
  exact execIllegal_eq

/-- An illegal word goes on with the result registers of `fail(ILLEGAL_COMMAND)`, whether IN was written or not. -/
theorem step_of_notMem_legalWords (h : s.nextAction = some (.cmd w)) (hw : w ∉ legalWords) :
    step s = .next { s with CMD := w, pos := s.pos + 1, STATUS := .illegalCommand, OUT := [], FC := false,
                            SYN := 0#16, REM := 0#15 } := by
  rw [step_cmd h, writeCommandWord_of_notMem_legalWords hw]
  simp [State.applyEffect, State.writeCMD, State.advance]

end Sys2Proof.Machine

namespace Sys2Proof.Proofs
open Sys2Proof.Machine

/-- Settles O1: each word of the map is its command's encoded word, and `exists_decodeWord_eq_ok_iff` excludes every
other. -/
theorem commandWordsDecode : Obligations.CommandWordsDecode :=
  ⟨decodeWord_encode .frmWrap, decodeWord_encode .frmIsComplete, decodeWord_encode .frmUnwrap,
    decodeWord_encode .hamEnc, decodeWord_encode .hamDec, decodeWord_encode .hamProc, decodeWord_encode .hamSend,
    decodeWord_encode .crcEnc, decodeWord_encode .crcDec, decodeWord_encode .crcProc, decodeWord_encode .crcSend,
    fun _ => exists_decodeWord_eq_ok_iff⟩

/-- Settles O6: no command runs, so the outcome does not need IN to have been written. -/
theorem illegalWordOutcome : Obligations.IllegalWordOutcome :=
  fun _ _ ha hw _ => step_of_notMem_legalWords ha hw

end Sys2Proof.Proofs
end

section
/-! PROOFS. The generator (R65) and the polynomial of a bit sequence, one bit at a time (R96). -/

namespace Sys2Proof.Machine

theorem bbRead_cons_succ (b : Bool) (a : BitBuffer) (i : Nat) : bbRead (b :: a) (i + 1) = bbRead a i := rfl

/-- G[j] = bit (15 - j) of CRC_GEN (R65). -/
theorem bbRead_crcGenBits {j : Nat} (hj : j ≤ 15) : bbRead crcGenBits j = CRC_GEN.getLsbD (15 - j) := by
  simp [bbRead, crcGenBits, CRC_L, Nat.lt_succ_iff.mpr hj]

@[simp] theorem bitsPoly_nil : bitsPoly [] = 0 := rfl

/-- The first bit is the coefficient of the highest power, x^(N-1) (R96). -/
@[simp] theorem bitsPoly_cons (b : Bool) (a : BitBuffer) :
    bitsPoly (b :: a) = (if b then Polynomial.X ^ a.length else 0) + bitsPoly a := by
  rw [bitsPoly, List.length_cons, Finset.sum_range_succ', add_comm, bitsPoly]
  congr 1
  refine Finset.sum_congr rfl fun i _ => ?_
  rw [bbRead_cons_succ, Nat.add_sub_cancel, Nat.sub_sub, Nat.add_comm 1]

theorem crcGenBits_eq : crcGenBits =
    [true, false, true, false, false, true, true, false, true, false, true, true, true, true, false, false] := by
  decide

theorem bitsPoly_crcGenBits : bitsPoly crcGenBits = Polynomial.X ^ 15 + Polynomial.X ^ 13 + Polynomial.X ^ 10 +
    Polynomial.X ^ 9 + Polynomial.X ^ 7 + Polynomial.X ^ 5 + Polynomial.X ^ 4 + Polynomial.X ^ 3 +
    Polynomial.X ^ 2 := by
  simp [crcGenBits_eq, add_assoc]

end Sys2Proof.Machine

namespace Sys2Proof.Proofs
open Sys2Proof.Machine

/-- Settles O47: the sixteen bits are those of CRC_GEN, and its polynomial has a term for each bit that is 1. -/
theorem generatorBits : Obligations.GeneratorBits :=
  ⟨crcGenBits_eq, fun _ hj => bbRead_crcGenBits hj, bitsPoly_crcGenBits⟩

end Sys2Proof.Proofs
end

section
/-! PROOFS. The framer. Every byte sequence splits into readable tokens and what the scan stops at, so that one lemma
on the scan of tokens gives unwrap's outcomes (R75, R77) and, as wrap emits readable tokens, its inversion of wrap
(R78). The completeness test goes by the last two bytes (R73). -/

namespace Sys2Proof.Machine

/-! ### The bytes and the length of a wrapped sequence (R71) -/

theorem stuffByte_eq (b : Byte) :
    stuffByte b = if b = 0x7B#8 ∨ b = 0x7D#8 ∨ b = 0x5C#8 then [0x5C#8, b] else [b] :=
  if_congr (isTag_iff b) rfl rfl

theorem wrap_eq (x : Bytes) : wrap x = [0x7B#8] ++
    x.flatMap (fun b => if b = 0x7B#8 ∨ b = 0x7D#8 ∨ b = 0x5C#8 then [0x5C#8, b] else [b]) ++ [0x7D#8] := by
  rw [← funext stuffByte_eq]
  rfl

theorem stuffByte_length (b : Byte) : (stuffByte b).length = 1 + if isTag b then 1 else 0 := by
  unfold stuffByte
  split <;> rfl

/-- Every tag value takes one byte more, its escape tag. -/
theorem flatMap_stuffByte_length (x : Bytes) : (x.flatMap stuffByte).length = x.length + x.countP isTag := by
  induction x with
  | nil => rfl
  | cons b x ih =>
    rw [List.flatMap_cons, List.length_append, stuffByte_length, ih, List.length_cons, List.countP_cons]
    omega

theorem wrap_length (x : Bytes) : (wrap x).length = 2 + x.length + x.countP isTag := by
  simp only [wrap, List.length_cons, List.length_append, List.length_nil, flatMap_stuffByte_length]
  omega

/-! ### The scan of tokens (R75, R77) -/

theorem tokenReadable_plain_iff (b : Byte) : tokenReadable (false, b) = true ↔ b ≠ ESC_TAG ∧ b ≠ STOP_TAG := by
  simp [tokenReadable, ESC_TAG, STOP_TAG]

theorem unwrapScan_tokenBytes {t : Bool × Byte} (ht : tokenReadable t = true) (rest : Bytes) :
    unwrapScan (tokenBytes t ++ rest) = (unwrapScan rest).map (t.2 :: ·) := by
  obtain ⟨escaped, b⟩ := t
  cases escaped with
  | true => exact unwrapScan_escape b rest
  | false =>
    obtain ⟨hesc, hstop⟩ := (tokenReadable_plain_iff b).mp ht
    exact unwrapScan_plain hesc hstop rest

/-- The scan copies the byte of each readable token and goes on behind them. -/
theorem unwrapScan_tokens {toks : List (Bool × Byte)} (h : toks.all tokenReadable = true) (rest : Bytes) :
    unwrapScan (toks.flatMap tokenBytes ++ rest) = (unwrapScan rest).map (toks.map Prod.snd ++ ·) := by
  induction toks with
  | nil => cases hr : unwrapScan rest <;> simp [hr, Except.map]
  | cons t toks ih =>
    obtain ⟨ht, htoks⟩ := Bool.and_eq_true_iff.mp (List.all_cons ▸ h)
    rw [List.flatMap_cons, List.append_assoc, unwrapScan_tokenBytes ht, ih htoks]
    cases unwrapScan rest <;> rfl

/-- What the scan stops at: the end of the bytes, a dangling escape tag, or an unescaped stop tag. -/
def ScanStop (rest : Bytes) : Prop := rest = [] ∨ rest = [ESC_TAG] ∨ ∃ tail, rest = STOP_TAG :: tail

/-- `x` is readable tokens up to where the scan stops. -/
def SplitsIntoTokens (x : Bytes) : Prop := ∃ (toks : List (Bool × Byte)) (rest : Bytes),
  toks.all tokenReadable = true ∧ x = toks.flatMap tokenBytes ++ rest ∧ ScanStop rest

theorem splitsIntoTokens_of_scanStop {x : Bytes} (h : ScanStop x) : SplitsIntoTokens x := ⟨[], x, rfl, rfl, h⟩

theorem splitsIntoTokens_append {t : Bool × Byte} {x : Bytes} (ht : tokenReadable t = true)
    (h : SplitsIntoTokens x) : SplitsIntoTokens (tokenBytes t ++ x) := by
  obtain ⟨toks, rest, htoks, rfl, hstop⟩ := h
  exact ⟨t :: toks, rest, by simp [ht, htoks], by simp, hstop⟩

theorem splitsIntoTokens_cons_plain {b : Byte} {x : Bytes} (hesc : b ≠ ESC_TAG) (hstop : b ≠ STOP_TAG)
    (h : SplitsIntoTokens x) : SplitsIntoTokens (b :: x) :=
  splitsIntoTokens_append ((tokenReadable_plain_iff b).mpr ⟨hesc, hstop⟩) h

/-- Every byte sequence splits, in the steps of the scan. -/
theorem splitsIntoTokens (x : Bytes) : SplitsIntoTokens x := by
  induction x using unwrapScan.induct with
  | case1 => exact splitsIntoTokens_of_scanStop (.inl rfl)
  | case2 => exact splitsIntoTokens_of_scanStop (.inr (.inl rfl))
  | case3 => exact splitsIntoTokens_of_scanStop (.inr (.inr ⟨_, rfl⟩))
  | case4 b hesc hstop => exact splitsIntoTokens_cons_plain hesc hstop (splitsIntoTokens_of_scanStop (.inl rfl))
  | case5 v rest ih => exact splitsIntoTokens_append (t := (true, v)) rfl ih
  | case6 => exact splitsIntoTokens_of_scanStop (.inr (.inr ⟨_, rfl⟩))
  | case7 b v rest hesc hstop ih => exact splitsIntoTokens_cons_plain hesc hstop ih

/-- The scan's two outcomes, each with the tokens it read. -/
theorem unwrapScan_cases (x : Bytes) : ∃ toks : List (Bool × Byte), toks.all tokenReadable = true ∧
    ((∃ tail, x = toks.flatMap tokenBytes ++ STOP_TAG :: tail ∧ unwrapScan x = .ok (toks.map Prod.snd)) ∨
      ((x = toks.flatMap tokenBytes ∨ x = toks.flatMap tokenBytes ++ [ESC_TAG]) ∧
        unwrapScan x = .error .missingStopTag)) := by
  obtain ⟨toks, rest, htoks, rfl, hrest⟩ := splitsIntoTokens x
  refine ⟨toks, htoks, ?_⟩
  rw [unwrapScan_tokens htoks]
  obtain rfl | rfl | ⟨tail, rfl⟩ := hrest
  · exact .inr ⟨.inl (List.append_nil _), rfl⟩
  · exact .inr ⟨.inr rfl, rfl⟩
  · exact .inl ⟨tail, rfl, by simp [Except.map]⟩

theorem unwrapScan_eq_ok_iff {x out : Bytes} : unwrapScan x = .ok out ↔
    ∃ (toks : List (Bool × Byte)) (tail : Bytes), toks.all tokenReadable = true ∧
      x = toks.flatMap tokenBytes ++ STOP_TAG :: tail ∧ out = toks.map Prod.snd := by
  constructor
  · intro h
    obtain ⟨toks, htoks, ⟨tail, hx, hok⟩ | ⟨-, herr⟩⟩ := unwrapScan_cases x
    · exact ⟨toks, tail, htoks, hx, Except.ok.inj (h.symm.trans hok)⟩
    · cases h.symm.trans herr
  · rintro ⟨toks, tail, htoks, rfl, rfl⟩
    simp [unwrapScan_tokens htoks, Except.map]

theorem unwrapScan_eq_missingStopTag_iff {x : Bytes} : unwrapScan x = .error .missingStopTag ↔
    ∃ toks : List (Bool × Byte), toks.all tokenReadable = true ∧
      (x = toks.flatMap tokenBytes ∨ x = toks.flatMap tokenBytes ++ [ESC_TAG]) := by
  constructor
  · intro h
    obtain ⟨toks, htoks, ⟨tail, -, hok⟩ | ⟨hx, -⟩⟩ := unwrapScan_cases x
    · cases h.symm.trans hok
    · exact ⟨toks, htoks, hx⟩
  · rintro ⟨toks, htoks, rfl | rfl⟩
    · rw [← List.append_nil (toks.flatMap tokenBytes), unwrapScan_tokens htoks]
      rfl
    · rw [unwrapScan_tokens htoks]
      rfl

theorem unwrapScan_ne_missingStartTag (x : Bytes) : unwrapScan x ≠ .error .missingStartTag := by
  intro h
  obtain ⟨toks, -, ⟨tail, -, hok⟩ | ⟨-, herr⟩⟩ := unwrapScan_cases x
  · cases h.symm.trans hok
  · cases h.symm.trans herr

/-! ### Unwrap -/

@[simp] theorem unwrap_start (x : Bytes) : unwrap (START_TAG :: x) = unwrapScan x := by simp [unwrap]

theorem unwrap_of_head_ne {f : Bytes} (h : f.head? ≠ some START_TAG) : unwrap f = .error .missingStartTag := by
  cases f with
  | nil => rfl
  | cons b f => exact if_neg fun hb => h (congrArg some hb)

/-- Any other result than a missing start tag is the scan's, behind a start tag. -/
theorem unwrap_eq_iff {r : Except FrameFailure Bytes} (hr : r ≠ .error .missingStartTag) {f : Bytes} :
    unwrap f = r ↔ ∃ x, f = START_TAG :: x ∧ unwrapScan x = r := by
  constructor
  · intro h
    have hhead : f.head? = some START_TAG := by
      by_contra hne
      exact hr (h.symm.trans (unwrap_of_head_ne hne))
    obtain ⟨x, rfl⟩ := List.head?_eq_some_iff.mp hhead
    exact ⟨x, rfl, (unwrap_start x).symm.trans h⟩
  · rintro ⟨x, rfl, h⟩
    rw [unwrap_start, h]

theorem unwrap_eq_missingStartTag_iff {f : Bytes} :
    unwrap f = .error .missingStartTag ↔ f.head? ≠ some START_TAG := by
  refine ⟨fun h hhead => ?_, unwrap_of_head_ne⟩
  obtain ⟨x, rfl⟩ := List.head?_eq_some_iff.mp hhead
  exact unwrapScan_ne_missingStartTag x ((unwrap_start x).symm.trans h)

theorem unwrap_eq_ok_iff {f out : Bytes} : unwrap f = .ok out ↔ ∃ (toks : List (Bool × Byte)) (rest : Bytes),
    toks.all tokenReadable = true ∧ f = [0x7B#8] ++ toks.flatMap tokenBytes ++ [0x7D#8] ++ rest ∧
      out = toks.map Prod.snd := by
  rw [unwrap_eq_iff (by simp)]
  constructor
  · rintro ⟨x, rfl, hx⟩
    obtain ⟨toks, rest, htoks, rfl, hout⟩ := unwrapScan_eq_ok_iff.mp hx
    exact ⟨toks, rest, htoks, by simp [START_TAG, STOP_TAG], hout⟩
  · rintro ⟨toks, rest, htoks, rfl, hout⟩
    exact ⟨toks.flatMap tokenBytes ++ STOP_TAG :: rest, by simp [START_TAG, STOP_TAG],
      unwrapScan_eq_ok_iff.mpr ⟨toks, rest, htoks, rfl, hout⟩⟩

theorem unwrap_eq_missingStopTag_iff {f : Bytes} : unwrap f = .error .missingStopTag ↔
    ∃ toks : List (Bool × Byte), toks.all tokenReadable = true ∧
      (f = [0x7B#8] ++ toks.flatMap tokenBytes ∨ f = [0x7B#8] ++ toks.flatMap tokenBytes ++ [0x5C#8]) := by
  rw [unwrap_eq_iff (by simp)]
  constructor
  · rintro ⟨x, rfl, hx⟩
    obtain ⟨toks, htoks, rfl | rfl⟩ := unwrapScan_eq_missingStopTag_iff.mp hx
    · exact ⟨toks, htoks, .inl rfl⟩
    · exact ⟨toks, htoks, .inr rfl⟩
  · rintro ⟨toks, htoks, rfl | rfl⟩
    · exact ⟨_, rfl, unwrapScan_eq_missingStopTag_iff.mpr ⟨toks, htoks, .inl rfl⟩⟩
    · exact ⟨_, rfl, unwrapScan_eq_missingStopTag_iff.mpr ⟨toks, htoks, .inr rfl⟩⟩

/-! ### Wrap emits readable tokens (R78) -/

/-- The token of one stuffed byte: an escape pair exactly for a tag value. -/
def stuffToken (b : Byte) : Bool × Byte := (isTag b, b)

theorem tokenBytes_stuffToken (b : Byte) : tokenBytes (stuffToken b) = stuffByte b := rfl

theorem tokenReadable_stuffToken (b : Byte) : tokenReadable (stuffToken b) = true := by
  cases htag : isTag b with
  | true => simp [stuffToken, tokenReadable, htag]
  | false =>
    have hne : ¬ (b = START_TAG ∨ b = STOP_TAG ∨ b = ESC_TAG) := by simp [← isTag_iff, htag]
    rw [stuffToken, htag, tokenReadable_plain_iff]
    exact ⟨fun h => hne (.inr (.inr h)), fun h => hne (.inr (.inl h))⟩

theorem unwrap_wrap (s : Bytes) : unwrap (wrap s) = .ok s := by
  rw [wrap, unwrap_start]
  refine unwrapScan_eq_ok_iff.mpr ⟨s.map stuffToken, [], ?_, ?_, ?_⟩
  · simp [tokenReadable_stuffToken]
  · simp [List.flatMap_map, tokenBytes_stuffToken]
  · simp [Function.comp_def, stuffToken]

/-! ### The completeness test (R73) -/

@[simp] theorem isFrameComplete_append_pair (front : Bytes) (b c : Byte) :
    isFrameComplete (front ++ [b, c]) = (c == STOP_TAG && b != ESC_TAG) := by
  simp [isFrameComplete, bne]

theorem isFrameComplete_iff {buf : Bytes} : isFrameComplete buf = true ↔
    ∃ front b, buf = front ++ [b, STOP_TAG] ∧ b ≠ ESC_TAG := by
  constructor
  · intro h
    obtain rfl | ⟨init, c, rfl⟩ := List.eq_nil_or_concat' buf
    · cases h
    obtain rfl | ⟨front, b, rfl⟩ := List.eq_nil_or_concat' init
    · cases h
    rw [List.append_assoc] at h ⊢
    obtain ⟨hc, hb⟩ := by simpa using h
    exact ⟨front, b, by simp [hc], hb⟩
  · rintro ⟨front, b, rfl, hb⟩
    simpa using hb

/-- A stuffed byte ends in the byte itself. -/
theorem exists_stuffByte_eq_append (b : Byte) : ∃ front, stuffByte b = front ++ [b] := by
  unfold stuffByte
  split
  · exact ⟨[ESC_TAG], rfl⟩
  · exact ⟨[], rfl⟩

theorem isFrameComplete_wrap_nil : isFrameComplete (wrap []) = true := by decide

/-- The byte before the final stop tag is the payload's last byte. -/
theorem isFrameComplete_wrap_concat (s : Bytes) (b : Byte) : isFrameComplete (wrap (s ++ [b])) = (b != ESC_TAG) := by
  obtain ⟨front, hb⟩ := exists_stuffByte_eq_append b
  have hwrap : wrap (s ++ [b]) = (START_TAG :: (s.flatMap stuffByte ++ front)) ++ [b, STOP_TAG] := by
    simp [wrap, hb]
  rw [hwrap, isFrameComplete_append_pair, beq_self_eq_true, Bool.true_and]

theorem isFrameComplete_wrap_iff (s : Bytes) : isFrameComplete (wrap s) = true ↔ s.getLast? ≠ some ESC_TAG := by
  obtain rfl | ⟨s, b, rfl⟩ := List.eq_nil_or_concat' s
  · simp [isFrameComplete_wrap_nil]
  · simp [isFrameComplete_wrap_concat]

/-! ### The commands (R72, R74, R76) -/

variable {s : State}

/-- An effect without frames writes the five result registers and nothing else (R27, R30). -/
theorem State.applyEffect_of_frames_nil {e : Effect} (h : e.frames = []) : s.applyEffect e =
    { s with STATUS := e.STATUS, OUT := e.OUT, FC := e.FC, SYN := e.SYN, REM := e.REM } := by
  rw [State.applyEffect, h, List.append_nil]

theorem frmUnwrapRule_of_ok {p : Params} {f m : Bytes} (h : unwrap f = .ok m) :
    frmUnwrapRule p f = { finish .ok with OUT := m } := by
  rw [frmUnwrapRule, h]

theorem frmUnwrapRule_of_error {p : Params} {f : Bytes} {e : FrameFailure} (h : unwrap f = .error e) :
    frmUnwrapRule p f = finish e.status := by
  rw [frmUnwrapRule, h]
  exact fail_eq_finish _

/-- FRM_UNWRAP never outgrows IN, so within BUF_CAP it completes. -/
theorem exec_frmUnwrap (hw : s.inWritten = true) (hle : s.IN.length ≤ s.params.bufCap) :
    exec .frmUnwrap s = .next (s.applyEffect (frmUnwrapRule s.params s.IN)) :=
  exec_of_OUT_le hw (Nat.le_trans (frmUnwrapRule_OUT_length_le s.params s.IN) hle)

theorem exec_frmUnwrap_of_ok (hw : s.inWritten = true) (hle : s.IN.length ≤ s.params.bufCap) {m : Bytes}
    (h : unwrap s.IN = .ok m) : exec .frmUnwrap s =
      .next { s with STATUS := .ok, OUT := m, FC := false, SYN := 0#16, REM := 0#15 } := by
  rw [exec_frmUnwrap hw hle, frmUnwrapRule_of_ok h, State.applyEffect_of_frames_nil rfl]
  rfl

theorem exec_frmUnwrap_of_error (hw : s.inWritten = true) (hle : s.IN.length ≤ s.params.bufCap) {e : FrameFailure}
    (h : unwrap s.IN = .error e) : exec .frmUnwrap s =
      .next { s with STATUS := e.status, OUT := [], FC := false, SYN := 0#16, REM := 0#15 } := by
  rw [exec_frmUnwrap hw hle, frmUnwrapRule_of_error h, State.applyEffect_of_frames_nil rfl]
  rfl

theorem exec_frmIsComplete (hw : s.inWritten = true) : exec .frmIsComplete s =
    .next { s with STATUS := .ok, OUT := [], FC := isFrameComplete s.IN, SYN := 0#16, REM := 0#15 } := by
  rw [exec_of_OUT_le hw (Nat.zero_le _), State.applyEffect_of_frames_nil rfl]
  rfl

theorem exec_frmWrap_of_le (hw : s.inWritten = true) (hle : (wrap s.IN).length ≤ s.params.bufCap) :
    exec .frmWrap s = .next { s with STATUS := .ok, OUT := wrap s.IN, FC := false, SYN := 0#16, REM := 0#15 } := by
  rw [exec_of_OUT_le (i := .frmWrap) hw hle, State.applyEffect_of_frames_nil rfl]
  rfl

end Sys2Proof.Machine

namespace Sys2Proof.Proofs
open Sys2Proof.Machine

/-- Settles O26: the command goes by the length of `wrap IN`, which counts one byte more for each tag value. -/
theorem frmWrapResult : Obligations.FrmWrapResult :=
  ⟨fun s hw => ⟨fun hle => wrap_eq s.IN ▸ exec_frmWrap_of_le hw ((wrap_length s.IN).trans_le hle),
      fun hlt => exec_of_lt_OUT (i := .frmWrap) hw (hlt.trans_eq (wrap_length s.IN).symm)⟩,
    fun x => ⟨wrap_eq x, wrap_length x⟩⟩

/-- Settles O27: FC is the completeness test of IN, which `isFrameComplete_iff` characterises. -/
theorem frmIsCompleteResult : Obligations.FrmIsCompleteResult :=
  fun s hw => ⟨isFrameComplete s.IN, exec_frmIsComplete hw, isFrameComplete_iff⟩

/-- Settles O28: the rule goes by the result of unwrap, whose bytes always fit. -/
theorem frmUnwrapResult : Obligations.FrmUnwrapResult :=
  fun _ hw hle => ⟨fun _ => exec_frmUnwrap_of_ok hw hle, exec_frmUnwrap_of_error hw hle,
    exec_frmUnwrap_of_error hw hle⟩

/-- Settles O29: behind the start tag, the scan's outcome is that of the tokens it reads. -/
theorem unwrapReadsUpToStopTag : Obligations.UnwrapReadsUpToStopTag :=
  ⟨fun _ => unwrap_eq_missingStartTag_iff, fun _ _ => unwrap_eq_ok_iff, fun _ => unwrap_eq_missingStopTag_iff⟩

/-- Settles O30: the tokens of the stuffed bytes are readable, and their bytes are the payload. -/
theorem unwrapInvertsWrap : Obligations.UnwrapInvertsWrap := unwrap_wrap

/-- Settles O31, by the cases of an empty payload and of a last byte. -/
theorem wrappedFrameTestsComplete : Obligations.WrappedFrameTestsComplete := isFrameComplete_wrap_iff

end Sys2Proof.Proofs
end

section
/-! PROOFS. The Hamming code's lengths. `n - P(n)`, the data capacity of `n` positions (R82), grows by one at each
position that is no power of two. The codeword length is its lower adjoint (R83), and the payload length of `B` bytes
is the number of whole bytes in the capacity of `8·B` positions (R91). -/

namespace Sys2Proof.Machine

/-! ### Counting the powers of two (R81) -/

theorem isPow2_two_pow (t : Nat) : isPow2 (2 ^ t) = true := (isPow2_iff _).mpr ⟨t, rfl⟩

theorem size_succ (q : Nat) : (q + 1).size = q.size + (isPow2 (q + 1)).toNat := by
  have hq := Nat.lt_size_self q
  have hmono := Nat.size_le_size (Nat.le_add_right q 1)
  have hle : (q + 1).size ≤ q.size + 1 := Nat.size_le.mpr (by rw [Nat.pow_succ]; omega)
  cases h : isPow2 (q + 1) with
  | true =>
    have := size_lt_size_succ h
    simp only [Bool.toNat_true]
    omega
  | false =>
    have hne : q + 1 ≠ 2 ^ q.size := fun heq => by simp [heq, isPow2_two_pow] at h
    have : (q + 1).size ≤ q.size := Nat.size_le.mpr (by omega)
    simp only [Bool.toNat_false]
    omega

theorem parityCount_succ (n : Nat) : parityCount (n + 1) = parityCount n + (isPow2 (n + 1)).toNat := by
  rw [parityCount, List.range'_1_concat, List.filter_append, List.length_append, ← parityCount, Nat.add_comm 1 n]
  cases h : isPow2 (n + 1) <;> simp [h]

theorem parityCount_eq_size (n : Nat) : parityCount n = n.size := by
  induction n with
  | zero => rfl
  | succ n ih => rw [parityCount_succ, size_succ, ih]

theorem size_eq_log2_succ {n : Nat} (hn : 1 ≤ n) : n.size = Nat.log2 n + 1 := by
  have hne : n ≠ 0 := by omega
  refine Nat.le_antisymm (Nat.size_le.mpr ?_) (Nat.lt_size.mpr ?_)
  · exact (Nat.log2_lt hne).mp (Nat.lt_succ_self _)
  · exact (Nat.le_log2 hne).mp (Nat.le_refl _)

theorem size_le_self (n : Nat) : n.size ≤ n := Nat.size_le.mpr Nat.lt_two_pow_self

/-! ### The doubling loop (R84, R92) -/

/-- From `2^t` on the loop visits the powers of two up to `n`, as long as its rounds are enough. -/
theorem doublingsFrom_eq {fuel t n : Nat} (hfuel : n.size ≤ fuel + t) :
    doublingsFrom fuel (2 ^ t) n = (List.range' t (n.size - t)).map (2 ^ ·) := by
  induction fuel generalizing t with
  | zero => simp [doublingsFrom, Nat.sub_eq_zero_of_le (Nat.zero_add t ▸ hfuel)]
  | succ fuel ih =>
    rw [doublingsFrom]
    split
    · next hle =>
      have ht : n.size - t = n.size - (t + 1) + 1 := by have := Nat.lt_size.mpr hle; omega
      rw [← Nat.pow_succ', ih (by omega), ht, List.range'_succ, List.map_cons]
    · next hlt =>
      have ht : n.size - t = 0 := Nat.sub_eq_zero_of_le (Nat.size_le.mpr (Nat.not_le.mp hlt))
      rw [ht, List.range'_zero, List.map_nil]

theorem parityPositions_eq (n : Nat) : parityPositions n = (List.range n.size).map (2 ^ ·) := by
  rw [List.range_eq_range', parityPositions]
  exact doublingsFrom_eq (t := 0) (size_le_self n)

theorem mem_parityPositions_iff {n p : Nat} : p ∈ parityPositions n ↔ isPow2 p = true ∧ p ≤ n := by
  rw [parityPositions_eq, List.mem_map, isPow2_iff]
  constructor
  · rintro ⟨t, ht, rfl⟩
    exact ⟨⟨t, rfl⟩, Nat.lt_size.mp (List.mem_range.mp ht)⟩
  · rintro ⟨⟨t, rfl⟩, hle⟩
    exact ⟨t, List.mem_range.mpr (Nat.lt_size.mpr hle), rfl⟩

/-! ### The data capacity (R82) -/

/-- The data bits `n` positions carry (R82). -/
def dataCapacity (n : Nat) : Nat := n - parityCount n

theorem dataCapacity_zero : dataCapacity 0 = 0 := rfl

theorem dataCapacity_add_size (n : Nat) : dataCapacity n + n.size = n := by
  rw [dataCapacity, parityCount_eq_size]
  exact Nat.sub_add_cancel (size_le_self n)

/-- One position more carries one bit more, unless it is a power of two. -/
theorem dataCapacity_succ (n : Nat) : dataCapacity (n + 1) + (isPow2 (n + 1)).toNat = dataCapacity n + 1 := by
  have h := dataCapacity_add_size n
  have h' := dataCapacity_add_size (n + 1)
  rw [size_succ] at h'
  omega

theorem dataCapacity_succ_of_isPow2 {n : Nat} (h : isPow2 (n + 1) = true) :
    dataCapacity (n + 1) = dataCapacity n := by
  simpa [h] using dataCapacity_succ n

theorem dataCapacity_succ_of_not_isPow2 {n : Nat} (h : isPow2 (n + 1) = false) :
    dataCapacity (n + 1) = dataCapacity n + 1 := by
  simpa [h] using dataCapacity_succ n

theorem dataCapacity_mono : Monotone dataCapacity :=
  monotone_nat_of_le_succ fun n => by
    have := dataCapacity_succ n
    have := Bool.toNat_le (isPow2 (n + 1))
    omega

theorem dataCapacity_add_le (n j : Nat) : dataCapacity (n + j) ≤ dataCapacity n + j := by
  induction j with
  | zero => exact Nat.le_refl _
  | succ j ih =>
    have := dataCapacity_succ (n + j)
    rw [← Nat.add_assoc]
    omega

/-! ### The codeword length (R83) -/

theorem two_mul_size_le (q : Nat) : 2 * q.size ≤ q + 2 := by
  have hgrow (s : Nat) : 2 * s ≤ 2 ^ s := by
    induction s with
    | zero => decide
    | succ s ih =>
      have : 2 ≤ 2 ^ (s + 1) := Nat.le_self_pow (Nat.succ_ne_zero s) 2
      rw [Nat.pow_succ] at this ⊢
      omega
  rcases Nat.eq_zero_or_pos q.size with h | h
  · omega
  · have hpow : 2 ^ (q.size - 1) ≤ q := Nat.lt_size.mp (by omega)
    have := hgrow (q.size - 1)
    omega

/-- The walk passes `m` data positions and stops at the last of them. The last of `T` data positions is at `2·T + 1` at
the latest, so the rounds are enough (R84, log entry 12). -/
theorem codewordLenFrom_spec {fuel q m : Nat} (hfuel : 2 * (dataCapacity q + m) + 1 ≤ fuel + q) :
    dataCapacity (codewordLenFrom fuel q m) = dataCapacity q + m ∧
      (1 ≤ m → isPow2 (codewordLenFrom fuel q m) = false) := by
  induction fuel generalizing q m with
  | zero =>
    have := dataCapacity_add_size q
    have := two_mul_size_le q
    obtain rfl : m = 0 := by omega
    simp [codewordLenFrom]
  | succ fuel ih =>
    cases m with
    | zero => simp [codewordLenFrom]
    | succ m =>
      rw [codewordLenFrom]
      split
      · next hpow =>
        have hcap := dataCapacity_succ_of_isPow2 hpow
        have hspec := ih (q := q + 1) (m := m + 1) (by omega)
        rwa [hcap] at hspec
      · next hpow =>
        rw [Bool.not_eq_true] at hpow
        have hcap := dataCapacity_succ_of_not_isPow2 hpow
        obtain ⟨hdata, hlast⟩ := ih (q := q + 1) (m := m) (by omega)
        refine ⟨by omega, fun _ => ?_⟩
        rcases Nat.eq_zero_or_pos m with rfl | hm
        · cases fuel <;> exact hpow
        · exact hlast hm

theorem codewordLen_spec (m : Nat) :
    dataCapacity (codewordLen m) = m ∧ (1 ≤ m → isPow2 (codewordLen m) = false) := by
  have h := codewordLenFrom_spec (fuel := 2 * m + 1) (q := 0) (m := m) (by rw [dataCapacity_zero]; omega)
  rwa [dataCapacity_zero, Nat.zero_add] at h

theorem dataCapacity_codewordLen (m : Nat) : dataCapacity (codewordLen m) = m := (codewordLen_spec m).1

theorem isPow2_codewordLen {m : Nat} (hm : 1 ≤ m) : isPow2 (codewordLen m) = false :=
  (codewordLen_spec m).2 hm

/-- A length that is no power of two is the smallest of its capacity: its last position carries a data bit. -/
theorem dataCapacity_lt_of_lt {n n' : Nat} (hpow : isPow2 n = false) (hlt : n' < n) :
    dataCapacity n' < dataCapacity n := by
  obtain ⟨k, rfl⟩ := Nat.exists_eq_add_of_lt hlt
  have := dataCapacity_mono (Nat.le_add_right n' k)
  rw [dataCapacity_succ_of_not_isPow2 hpow]
  omega

/-- The codeword length and the data capacity are adjoint. -/
theorem gc_codewordLen_dataCapacity : GaloisConnection codewordLen dataCapacity := by
  intro m n
  constructor
  · intro h
    exact (dataCapacity_codewordLen m).symm.trans_le (dataCapacity_mono h)
  · intro h
    by_contra hlt
    rcases Nat.eq_zero_or_pos m with rfl | hm
    · exact hlt (Nat.zero_le n)
    · have := dataCapacity_lt_of_lt (isPow2_codewordLen hm) (Nat.not_le.mp hlt)
      rw [dataCapacity_codewordLen] at this
      omega

theorem codewordLen_add_le (m j : Nat) : codewordLen m + j ≤ codewordLen (m + j) := by
  have hmono := gc_codewordLen_dataCapacity.monotone_l (Nat.le_add_right m j)
  obtain ⟨i, hi⟩ := Nat.exists_eq_add_of_le hmono
  have hcap := dataCapacity_add_le (codewordLen m) i
  rw [← hi, dataCapacity_codewordLen, dataCapacity_codewordLen] at hcap
  omega

/-! ### The payload length (R91) -/

/-- A payload fits in `B` bytes exactly when its bits fit in the capacity of `8·B` positions. -/
theorem codewordBytes_le_iff {k B : Nat} : codewordBytes k ≤ B ↔ k ≤ dataCapacity (8 * B) / 8 := by
  have hgc := gc_codewordLen_dataCapacity (8 * k) (8 * B)
  unfold codewordBytes
  omega

theorem codewordBytes_strictMono : StrictMono codewordBytes :=
  strictMono_nat_of_lt_succ fun k => by
    have := codewordLen_add_le (8 * k) 8
    unfold codewordBytes
    rw [Nat.mul_succ]
    omega

theorem largestPayload_eq_min (B bound : Nat) : largestPayload B bound = min bound (dataCapacity (8 * B) / 8) := by
  induction bound with
  | zero => exact (Nat.zero_min _).symm
  | succ k ih =>
    rw [largestPayload, ih]
    split
    · next h => exact (Nat.min_eq_left (codewordBytes_le_iff.mp h)).symm
    · next h => rw [codewordBytes_le_iff] at h; omega

/-- The search's bound `B` is no limit: a payload is never longer than its codeword (R91, log entry 12). -/
theorem payloadLen_eq (B : Nat) : payloadLen B = dataCapacity (8 * B) / 8 := by
  have := dataCapacity_add_size (8 * B)
  rw [payloadLen, largestPayload_eq_min]
  omega

theorem gc_codewordBytes_payloadLen : GaloisConnection codewordBytes payloadLen := fun k B => by
  rw [codewordBytes_le_iff, payloadLen_eq]

theorem payloadLen_codewordBytes (k : Nat) : payloadLen (codewordBytes k) = k :=
  codewordBytes_strictMono.injective (gc_codewordBytes_payloadLen.l_u_l_eq_l k)

/-- The parity bits of `8·B` positions take `j` of the `B` bytes. -/
theorem payloadLen_eq_sub {B j : Nat} (hlow : 8 * j < (8 * B).size + 8) (hhigh : (8 * B).size ≤ 8 * j) :
    payloadLen B = B - j := by
  have := dataCapacity_add_size (8 * B)
  rw [payloadLen_eq]
  omega

/-- Below 32 bytes there are at most 8 parity bits. -/
theorem payloadLen_of_le_31 {B : Nat} (h : 1 ≤ B) (hB : B ≤ 31) : payloadLen B = B - 1 :=
  payloadLen_eq_sub (Nat.add_lt_add_right (Nat.size_pos.mpr (by omega)) 8) (Nat.size_le.mpr (by omega))

/-- From 32 bytes to BUF_CAP's largest value there are 9 to 16 parity bits. -/
theorem payloadLen_of_le_4095 {B : Nat} (h : 32 ≤ B) (hB : B ≤ 4095) : payloadLen B = B - 2 :=
  payloadLen_eq_sub (Nat.add_lt_add_right (Nat.lt_size.mpr (by omega : 2 ^ 8 ≤ 8 * B)) 8) (Nat.size_le.mpr (by omega))

theorem codewordBytes_of_le_30 {k : Nat} (h : 1 ≤ k) (hk : k ≤ 30) : codewordBytes k = k + 1 := by
  have hfit := gc_codewordBytes_payloadLen k (k + 1)
  have hlong := gc_codewordBytes_payloadLen k k
  rw [payloadLen_of_le_31 (by omega) (by omega)] at hfit hlong
  omega

/-- A byte count the encoder makes is the one it makes for that count's own payload length. -/
theorem codewordBytes_ne_of_payloadLen {B : Nat} (h : codewordBytes (payloadLen B) ≠ B) (k : Nat) :
    codewordBytes k ≠ B := by
  rintro rfl
  exact h (gc_codewordBytes_payloadLen.l_u_l_eq_l k)

theorem codewordBytes_ne_one (k : Nat) : codewordBytes k ≠ 1 :=
  codewordBytes_ne_of_payloadLen (by decide) k

theorem codewordBytes_ne_32 (k : Nat) : codewordBytes k ≠ 32 :=
  codewordBytes_ne_of_payloadLen
    (by rw [payloadLen_of_le_4095 (by decide) (by decide), codewordBytes_of_le_30 (by decide) (by decide)]; decide) k

/-! ### HAM_ENC (R85) -/

theorem exec_hamEnc_of_le {s : State} (hw : s.inWritten = true) (hle : codewordBytes s.IN.length ≤ s.params.bufCap) :
    exec .hamEnc s = .next { s with
      STATUS := .ok, OUT := hamEncode s.params.bitOrder s.IN, FC := false, SYN := 0#16, REM := 0#15 } := by
  rw [exec_of_OUT_le (i := .hamEnc) hw ((hamEncode_length s.params.bitOrder s.IN).trans_le hle),
    State.applyEffect_of_frames_nil rfl]
  rfl

end Sys2Proof.Machine

namespace Sys2Proof.Proofs
open Sys2Proof.Machine

/-- Settles O33: the codeword length is the lower adjoint of the data capacity, and P(n) is the binary size of `n`. -/
theorem codewordLengthIsSmallest : Obligations.CodewordLengthIsSmallest := by
  refine ⟨fun _ => gc_codewordLen_dataCapacity.isLeast_l, fun _ => isPow2_codewordLen, by decide, rfl, fun n hn => ?_,
    fun n => ?_⟩
  · rw [parityCount_eq_size, size_eq_log2_succ hn]
  · rw [parityCount_eq_size, parityPositions_eq]

/-- Settles O36: the command goes by the length of the codeword's bytes. -/
theorem hamEncResult : Obligations.HamEncResult :=
  ⟨fun _ hw hle => exec_hamEnc_of_le hw hle,
    fun o x => ⟨hamEncode_length o x, codewordBytes_of_le_30, fun h => h ▸ rfl⟩⟩

/-- Settles O40: the payload length is the upper adjoint of the encoder's length, which is strictly increasing. -/
theorem payloadLengthIsLargest : Obligations.PayloadLengthIsLargest :=
  ⟨fun _ => gc_codewordBytes_payloadLen.isGreatest_u, payloadLen_codewordBytes, rfl,
    payloadLen_of_le_31 (by decide) (by decide), fun _ h hB => payloadLen_of_le_31 (by omega) hB,
    payloadLen_of_le_4095 (by decide) (by decide), fun _ h hB => payloadLen_of_le_4095 (by omega) hB,
    fun k => ⟨codewordBytes_ne_one k, codewordBytes_ne_32 k⟩⟩

end Sys2Proof.Proofs
end

section
/-! PROOFS. The parity checks of the Hamming code, all at once: `positionXor`, the XOR of the positions of the set bits.
Its bits are the group parities (R84, R87), so its powers of two are the mismatch set and it is the syndrome (R88).
Writing a parity bit clears one bit of it, so an encoded codeword has none (R86). -/

namespace Sys2Proof.Machine

theorem bbRead_cons_zero (b : Bool) (a : BitBuffer) : bbRead (b :: a) 0 = b := rfl

/-! ### The XOR of the set positions -/

/-- The XOR of the positions of the set bits, the list's first bit at position `i`. -/
def positionXorFrom : Nat → BitBuffer → Nat
  | _, [] => 0
  | i, b :: bs => (if b then i else 0) ^^^ positionXorFrom (i + 1) bs

/-- The XOR of the positions of the set bits of a buffer. -/
def positionXor (c : BitBuffer) : Nat := positionXorFrom 1 c

theorem positionXorFrom_append (i : Nat) (a b : BitBuffer) :
    positionXorFrom i (a ++ b) = positionXorFrom i a ^^^ positionXorFrom (i + a.length) b := by
  induction a generalizing i with
  | nil => simp [positionXorFrom]
  | cons x a ih =>
    rw [List.cons_append, positionXorFrom, positionXorFrom, ih, Nat.xor_assoc, List.length_cons, Nat.add_right_comm,
      Nat.add_assoc]

theorem positionXorFrom_replicate_false (i n : Nat) : positionXorFrom i (List.replicate n false) = 0 := by
  induction n generalizing i with
  | zero => rfl
  | succ n ih => simp [List.replicate_succ, positionXorFrom, ih]

/-- Zero bits after the end add no position. -/
theorem positionXor_append_zeros (c : BitBuffer) (n : Nat) :
    positionXor (c ++ List.replicate n false) = positionXor c := by
  rw [positionXor, positionXorFrom_append, positionXorFrom_replicate_false, Nat.xor_zero, positionXor]

theorem positionXorFrom_lt {k i : Nat} {c : BitBuffer} (h : i + c.length ≤ 2 ^ k) : positionXorFrom i c < 2 ^ k := by
  induction c generalizing i with
  | nil => exact Nat.two_pow_pos k
  | cons b c ih =>
    rw [List.length_cons] at h
    refine Nat.xor_lt_two_pow ?_ (ih (by omega))
    split <;> omega

theorem positionXor_lt (c : BitBuffer) : positionXor c < 2 ^ c.length.size :=
  positionXorFrom_lt (by have := Nat.lt_size_self c.length; omega)

/-- Setting a bit brings its position in or takes it out when the bit changes. -/
theorem positionXorFrom_set (i : Nat) {c : BitBuffer} {k : Nat} (hk : k < c.length) (v : Bool) :
    positionXorFrom i (c.set k v) = positionXorFrom i c ^^^ (if bbRead c k ^^ v then i + k else 0) := by
  induction c generalizing i k with
  | nil => cases hk
  | cons b c ih =>
    cases k with
    | zero =>
      rw [List.set_cons_zero, positionXorFrom, positionXorFrom, Nat.xor_right_comm, bbRead_cons_zero, Nat.add_zero]
      cases b <;> cases v <;> simp
    | succ k =>
      rw [List.set_cons_succ, positionXorFrom, positionXorFrom, ih _ (Nat.lt_of_succ_lt_succ hk), bbRead_cons_succ,
        Nat.xor_assoc, Nat.add_right_comm, Nat.add_assoc]

theorem positionXor_set {c : BitBuffer} {k : Nat} (hk : k < c.length) (v : Bool) :
    positionXor (c.set k v) = positionXor c ^^^ (if bbRead c k ^^ v then k + 1 else 0) := by
  rw [positionXor, positionXorFrom_set 1 hk, Nat.add_comm 1 k, positionXor]

/-! ### The groups (R84, R87) -/

/-- Position `i` is in the group of `2^t` exactly when bit `t` of `i` is 1. -/
theorem and_two_pow_ne_zero (i t : Nat) : ((i &&& 2 ^ t) != 0) = i.testBit t := by
  rw [Nat.and_two_pow]
  cases i.testBit t <;> simp

theorem le_of_and_two_pow {i t : Nat} (h : ((i &&& 2 ^ t) != 0) = true) : 2 ^ t ≤ i :=
  Nat.ge_two_pow_of_testBit (and_two_pow_ne_zero i t ▸ h)

theorem groupParityFrom_two_pow (t i : Nat) (c : BitBuffer) :
    groupParityFrom (2 ^ t) i c = (positionXorFrom i c).testBit t := by
  induction c generalizing i with
  | nil => simp [groupParityFrom, positionXorFrom]
  | cons b c ih =>
    have hmem : (decide (2 ^ t ≤ i) && (i &&& 2 ^ t) != 0) = i.testBit t := by
      rw [and_two_pow_ne_zero]
      cases h : i.testBit t with
      | false => exact Bool.and_false _
      | true => simpa using Nat.ge_two_pow_of_testBit h
    rw [groupParityFrom, positionXorFrom, ih, Nat.testBit_xor, hmem]
    cases b <;> simp

theorem groupParity_two_pow (c : BitBuffer) (t : Nat) : groupParity c (2 ^ t) = (positionXor c).testBit t :=
  groupParityFrom_two_pow t 1 c

theorem succ_mod_two_beq_one (n : Nat) : ((n + 1) % 2 == 1) = !(n % 2 == 1) := by
  rcases Nat.mod_two_eq_zero_or_one n with h | h <;> simp [Nat.add_mod, h]

/-- The number of set bits in a group is odd exactly when their positions leave the group's bit in the XOR. -/
theorem odd_group_eq_testBit (t i : Nat) (c : BitBuffer) :
    (((List.range' i c.length).filter fun j => (j &&& 2 ^ t) != 0 && bbRead c (j - i)).length % 2 == 1) =
      (positionXorFrom i c).testBit t := by
  induction c generalizing i with
  | nil => simp [positionXorFrom]
  | cons b c ih =>
    have htail : (List.range' (i + 1) c.length).filter (fun j => (j &&& 2 ^ t) != 0 && bbRead (b :: c) (j - i)) =
        (List.range' (i + 1) c.length).filter fun j => (j &&& 2 ^ t) != 0 && bbRead c (j - (i + 1)) := by
      refine List.filter_congr fun j hj => ?_
      have hlt : i < j := (List.mem_range'_1.mp hj).1
      obtain ⟨k, rfl⟩ := Nat.exists_eq_add_of_lt hlt
      rw [show i + k + 1 - i = k + 1 by omega, show i + k + 1 - (i + 1) = k by omega, bbRead_cons_succ]
    rw [positionXorFrom, Nat.testBit_xor, ← ih, List.length_cons, List.range'_succ, List.filter_cons, htail,
      Nat.sub_self, and_two_pow_ne_zero, bbRead_cons_zero]
    cases b with
    | false => simp
    | true =>
      rw [Bool.and_true, if_pos rfl]
      cases i.testBit t with
      | false => simp
      | true =>
        rw [if_pos rfl, List.length_cons, Bool.true_xor]
        exact succ_mod_two_beq_one _

/-- The positions below `2^t` are in no group of it, so counting from position 1 finds the same ones. -/
theorem filter_group_range' (g : Nat → Bool) (t n : Nat) :
    (List.range' (2 ^ t) (n + 1 - 2 ^ t)).filter (fun i => (i &&& 2 ^ t) != 0 && g i) =
      (List.range' 1 n).filter fun i => (i &&& 2 ^ t) != 0 && g i := by
  refine List.SortedLT.eq_of_mem_iff ((List.pairwise_lt_range' ..).filter _).sortedLT
    ((List.pairwise_lt_range' ..).filter _).sortedLT fun i => ?_
  rw [List.mem_filter, List.mem_filter, List.mem_range'_1, List.mem_range'_1]
  refine and_congr_left fun hi => ?_
  have hpos := Nat.two_pow_pos t
  have hle := le_of_and_two_pow (Bool.and_eq_true_iff.mp hi).1
  omega

theorem groupXor_two_pow (c : BitBuffer) (t : Nat) : groupXor c (2 ^ t) = (positionXor c).testBit t := by
  rw [groupXor, filter_group_range']
  exact odd_group_eq_testBit t 1 c

theorem groupXor_eq_groupParity {c : BitBuffer} {p : Nat} (hp : isPow2 p = true) : groupXor c p = groupParity c p := by
  obtain ⟨t, rfl⟩ := (isPow2_iff p).mp hp
  rw [groupXor_two_pow, groupParity_two_pow]

/-! ### The mismatch set and the syndrome (R87, R88) -/

theorem mem_mismatchSet_iff {c : BitBuffer} {p : Nat} :
    p ∈ mismatchSet c ↔ isPow2 p = true ∧ p ≤ c.length ∧ groupXor c p = true := by
  rw [mismatchSet, List.mem_filter, mem_parityPositions_iff, and_assoc]
  refine and_congr_right fun hp => ?_
  rw [groupXor_eq_groupParity hp]

/-- The mismatch set lists the powers of two of the XOR of the set positions. -/
theorem mismatchSet_eq_map_bitIndices (c : BitBuffer) : mismatchSet c = (positionXor c).bitIndices.map (2 ^ ·) := by
  have hbits : (List.range c.length.size).filter (positionXor c).testBit = (positionXor c).bitIndices := by
    refine List.SortedLT.eq_of_mem_iff (List.pairwise_lt_range.filter _).sortedLT Nat.bitIndices_sorted fun t => ?_
    rw [List.mem_filter, List.mem_range, Nat.mem_bitIndices, and_iff_right_iff_imp]
    intro ht
    exact (Nat.pow_lt_pow_iff_right (by decide)).mp
      (Nat.lt_of_le_of_lt (Nat.ge_two_pow_of_testBit ht) (positionXor_lt c))
  rw [mismatchSet, parityPositions_eq, List.filter_map, ← hbits]
  congr 2
  exact funext fun t => groupParity_two_pow c t

theorem syndrome_eq_positionXor (c : BitBuffer) : syndrome c = positionXor c := by
  rw [syndrome, mismatchSet_eq_map_bitIndices, Nat.sum_map_two_pow_bitIndices]

/-! ### The parity bits of an encoded codeword (R84, R86) -/

/-- The second loop of R84 after `k` rounds: the parity bits of the first `k` powers of two are written. -/
def writeParities (c : BitBuffer) (k : Nat) : BitBuffer :=
  ((List.range k).map (2 ^ ·)).foldl (fun c p => bbWrite c (p - 1) (groupParity c p)) c

theorem hamEncodeBits_eq (d : BitBuffer) :
    hamEncodeBits d = writeParities (placeData d) (placeData d).length.size := by
  rw [writeParities, ← parityPositions_eq, hamEncodeBits]

theorem writeParities_succ (c : BitBuffer) (k : Nat) : writeParities c (k + 1) =
    bbWrite (writeParities c k) (2 ^ k - 1) (groupParity (writeParities c k) (2 ^ k)) := by
  simp only [writeParities, List.range_succ, List.map_append, List.foldl_append, List.map_singleton, List.foldl_cons,
    List.foldl_nil]

/-- The walk leaves 0 at each power-of-two position (R84). -/
theorem bbRead_placeFrom_of_isPow2 {fuel q i : Nat} (d : BitBuffer) (h : isPow2 (q + i + 1) = true) :
    bbRead (placeFrom fuel q d) i = false := by
  induction fuel generalizing q i d with
  | zero => cases d <;> rfl
  | succ fuel ih =>
    cases d with
    | nil => rfl
    | cons b d =>
      rw [placeFrom]
      split
      · cases i with
        | zero => rfl
        | succ i => exact ih _ (by rwa [Nat.add_right_comm q 1 i])
      · cases i with
        | zero => contradiction
        | succ i => exact ih _ (by rwa [Nat.add_right_comm q 1 i])

theorem bbRead_placeData_two_pow (d : BitBuffer) (t : Nat) : bbRead (placeData d) (2 ^ t - 1) = false :=
  bbRead_placeFrom_of_isPow2 d (by rw [Nat.zero_add, Nat.sub_add_cancel Nat.one_le_two_pow, isPow2_two_pow])

theorem writeParities_length {c : BitBuffer} {k : Nat} (hk : k ≤ c.length.size) :
    (writeParities c k).length = c.length := by
  induction k with
  | zero => rfl
  | succ k ih =>
    have hle := Nat.lt_size.mp hk
    rw [writeParities_succ, bbWrite_length, ih (by omega), Nat.sub_add_cancel Nat.one_le_two_pow, Nat.max_eq_left hle]

/-- A parity bit not yet written is as it was. -/
theorem bbRead_writeParities_of_le {c : BitBuffer} {k t : Nat} (hkt : k ≤ t) :
    bbRead (writeParities c k) (2 ^ t - 1) = bbRead c (2 ^ t - 1) := by
  induction k with
  | zero => rfl
  | succ k ih =>
    have hlt : 2 ^ k < 2 ^ t := Nat.pow_lt_pow_right (by decide) hkt
    have hpos := Nat.two_pow_pos k
    rw [writeParities_succ, bbRead_bbWrite_ne _ _ (by omega), ih (by omega)]

/-- Writing the parity bit over the placeholder clears bit `t` of the XOR and no other. -/
theorem testBit_positionXor_bbWrite_groupParity {c : BitBuffer} {t : Nat} (ht : 2 ^ t ≤ c.length)
    (hzero : bbRead c (2 ^ t - 1) = false) (i : Nat) :
    (positionXor (bbWrite c (2 ^ t - 1) (groupParity c (2 ^ t)))).testBit i =
      ((positionXor c).testBit i && decide (i ≠ t)) := by
  have hpos := Nat.two_pow_pos t
  have hlt : 2 ^ t - 1 < c.length := by omega
  rw [bbWrite_of_lt hlt, positionXor_set hlt, hzero, groupParity_two_pow, Bool.false_xor,
    Nat.sub_add_cancel hpos, Nat.testBit_xor]
  rcases eq_or_ne i t with rfl | hi
  · cases h : (positionXor c).testBit i <;> simp
  · cases h : (positionXor c).testBit t <;> simp [hi, hi.symm]

theorem testBit_positionXor_writeParities {c : BitBuffer} {k : Nat} (hk : k ≤ c.length.size)
    (hzero : ∀ t, bbRead c (2 ^ t - 1) = false) {i : Nat} (hi : i < k) :
    (positionXor (writeParities c k)).testBit i = false := by
  induction k with
  | zero => cases hi
  | succ k ih =>
    have hlen := writeParities_length (Nat.le_of_succ_le hk)
    rw [writeParities_succ, testBit_positionXor_bbWrite_groupParity (hlen ▸ Nat.lt_size.mp hk)
      ((bbRead_writeParities_of_le (Nat.le_refl k)).trans (hzero k))]
    rcases Nat.lt_succ_iff_lt_or_eq.mp hi with hlt | rfl
    · rw [ih (Nat.le_of_succ_le hk) hlt, Bool.false_and]
    · simp

/-- An encoded codeword has even parity in every group at once. -/
theorem positionXor_hamEncodeBits (d : BitBuffer) : positionXor (hamEncodeBits d) = 0 := by
  have hlen := hamEncodeBits_length d
  rw [← placeData_length] at hlen
  refine Nat.zero_of_testBit_eq_false fun t => ?_
  rcases Nat.lt_or_ge t (placeData d).length.size with ht | ht
  · rw [hamEncodeBits_eq]
    exact testBit_positionXor_writeParities (Nat.le_refl _) (bbRead_placeData_two_pow d) ht
  · refine Nat.testBit_lt_two_pow ((positionXor_lt _).trans_le ?_)
    rw [hlen]
    exact Nat.pow_le_pow_right Nat.two_pos ht

end Sys2Proof.Machine

namespace Sys2Proof.Proofs
open Sys2Proof.Machine

/-- Settles O35: the group parities are the bits of the XOR of the set positions, which zero padding does not change. -/
theorem hamEvenParity : Obligations.HamEvenParity := by
  intro d p zeros hp _
  obtain ⟨t, rfl⟩ := (isPow2_iff p).mp hp
  rw [groupXor_two_pow, positionXor_append_zeros, positionXor_hamEncodeBits, Nat.zero_testBit]

/-- Settles O37: the loop visits the powers of two up to the length and keeps those whose group parity is 1. -/
theorem mismatchSetIsFailedChecks : Obligations.MismatchSetIsFailedChecks := fun _ _ => mem_mismatchSet_iff

end Sys2Proof.Proofs
end

section
/-! PROOFS. Strip, correction and decoding. The stripped length is the data capacity (R82, R90), which shows that the
placement walk places all the data (R84). One flipped bit makes its own position the XOR of the set positions of a clean
codeword, so the correction undoes the flip (R94). -/

namespace Sys2Proof.Machine

/-! ### Strip (R90) -/

theorem stripFrom_append (q : Nat) (a b : BitBuffer) :
    stripFrom q (a ++ b) = stripFrom q a ++ stripFrom (q + a.length) b := by
  induction a generalizing q with
  | nil => rfl
  | cons x a ih =>
    rw [List.cons_append, stripFrom, stripFrom, ih, List.length_cons, Nat.add_right_comm, Nat.add_assoc]
    split <;> rfl

theorem strip_append (a b : BitBuffer) : strip (a ++ b) = strip a ++ stripFrom a.length b := by
  rw [strip, stripFrom_append, Nat.zero_add, strip]

/-- A codeword's stripped length is its data capacity. -/
theorem stripFrom_length (q : Nat) (c : BitBuffer) :
    dataCapacity q + (stripFrom q c).length = dataCapacity (q + c.length) := by
  induction c generalizing q with
  | nil => rfl
  | cons b c ih =>
    rw [List.length_cons, Nat.add_comm c.length 1, ← Nat.add_assoc, ← ih (q + 1), stripFrom]
    split
    · next h => rw [dataCapacity_succ_of_isPow2 h]
    · next h => rw [dataCapacity_succ_of_not_isPow2 (Bool.not_eq_true _ ▸ h), List.length_cons]; omega

theorem strip_length (c : BitBuffer) : (strip c).length = dataCapacity c.length := by
  have h := stripFrom_length 0 c
  rwa [dataCapacity_zero, Nat.zero_add, Nat.zero_add] at h

/-- A parity bit does not reach the stripped sequence. -/
theorem stripFrom_set_of_isPow2 {q k : Nat} (c : BitBuffer) (v : Bool) (h : isPow2 (q + k + 1) = true) :
    stripFrom q (c.set k v) = stripFrom q c := by
  induction c generalizing q k with
  | nil => rfl
  | cons b c ih =>
    cases k with
    | zero => rw [List.set_cons_zero, stripFrom, stripFrom, if_pos h, if_pos h]
    | succ k => rw [List.set_cons_succ, stripFrom, stripFrom, ih (by rwa [Nat.add_right_comm q 1 k])]

theorem strip_writeParities {c : BitBuffer} {k : Nat} (hk : k ≤ c.length.size) :
    strip (writeParities c k) = strip c := by
  induction k with
  | zero => rfl
  | succ k ih =>
    have hle := Nat.lt_size.mp hk
    have hpos := Nat.two_pow_pos k
    rw [writeParities_succ, bbWrite_of_lt (by rw [writeParities_length (Nat.le_of_succ_le hk)]; omega), strip,
      stripFrom_set_of_isPow2 _ _ (by rw [Nat.zero_add, Nat.sub_add_cancel hpos, isPow2_two_pow]), ← strip,
      ih (Nat.le_of_succ_le hk)]

/-- What the walk places, strip gives back in order, whether or not the rounds were enough for all of it. -/
theorem stripFrom_placeFrom_isPrefix (fuel q : Nat) (d : BitBuffer) : stripFrom q (placeFrom fuel q d) <+: d := by
  induction fuel generalizing q d with
  | zero => cases d <;> exact List.nil_prefix
  | succ fuel ih =>
    cases d with
    | nil => exact List.nil_prefix
    | cons b d =>
      rw [placeFrom]
      split
      · next h => rw [stripFrom, if_pos h]; exact ih (q + 1) (b :: d)
      · next h => rw [stripFrom, if_neg h, List.prefix_cons_inj]; exact ih (q + 1) d

theorem strip_placeData (d : BitBuffer) : strip (placeData d) = d :=
  (stripFrom_placeFrom_isPrefix _ 0 d).eq_of_length
    (by rw [← strip, ← placeData, strip_length, placeData_length, dataCapacity_codewordLen])

theorem strip_hamEncodeBits (d : BitBuffer) : strip (hamEncodeBits d) = d := by
  rw [hamEncodeBits_eq, strip_writeParities (Nat.le_refl _), strip_placeData]

/-! ### Correction (R89) -/

theorem correct_zero (c : BitBuffer) : correct c 0 = c := rfl

theorem correct_of_pos {s : Nat} (c : BitBuffer) (h : 1 ≤ s) :
    correct c s = bbWrite c (s - 1) (!bbRead c (s - 1)) := if_neg (Nat.ne_of_gt h)

theorem correct_of_le {c : BitBuffer} {s : Nat} (h : 1 ≤ s) (hs : s ≤ c.length) :
    correct c s = c.set (s - 1) (!bbRead c (s - 1)) := by
  rw [correct_of_pos c h, bbWrite_of_lt (by omega)]

/-- Beyond the buffer the bit reads 0, so a 1 is written there. -/
theorem correct_of_lt {c : BitBuffer} {s : Nat} (h : c.length < s) : correct c s = bbWrite c (s - 1) true := by
  rw [correct_of_pos c (by omega), bbRead_of_le c (by omega), Bool.not_false]

/-- A write beyond the buffer keeps it in front, so the stripped sequence only grows at its end (R36). -/
theorem exists_bbWrite_eq_append {c : BitBuffer} {i : Nat} (h : c.length ≤ i) (v : Bool) :
    ∃ grown, bbWrite c i v = c ++ grown :=
  ⟨List.replicate (i - c.length) false ++ [v], by rw [bbWrite, if_neg (by omega), List.append_assoc]⟩

/-! ### One flipped bit (R14, R94) -/

/-- A flip moves the XOR of the set positions by the position flipped. -/
theorem positionXor_of_flip {c c' : BitBuffer} {k : Nat} (hlen : c'.length = c.length) (hk : k < c.length)
    (hread : ∀ i, bbRead c' i = (bbRead c i ^^ decide (i = k))) : positionXor c' = positionXor c ^^^ (k + 1) := by
  have hset : c' = c.set k (!bbRead c k) := by
    rw [← bbWrite_of_lt hk]
    refine bitBuffer_ext ?_ fun i => by rw [hread, bbRead_bbWrite_not]
    rw [hlen, bbWrite_length]
    omega
  rw [hset, positionXor_set hk]
  simp

/-- The correction undoes the flip of the bit it inverts. -/
theorem correct_of_flip {c c' : BitBuffer} {k : Nat} (hlen : c'.length = c.length) (hk : k < c.length)
    (hread : ∀ i, bbRead c' i = (bbRead c i ^^ decide (i = k))) : correct c' (k + 1) = c := by
  rw [correct_of_pos _ (Nat.le_add_left 1 k), Nat.add_sub_cancel]
  refine bitBuffer_ext ?_ fun i => ?_
  · rw [bbWrite_length, hlen]
    omega
  · rw [bbRead_bbWrite_not, hread, Bool.xor_assoc, Bool.xor_self, Bool.xor_false]

/-! ### Decoding (R92, R94) -/

variable (o : BitOrder) (x : Bytes)

/-- Bytes whose corrected codeword is the encoded one decode to the payload: k(B) leaves the padding out. -/
theorem hamDecode_of_correct {y : Bytes} (hlen : y.length = (hamEncode o x).length)
    (h : correct (bitsOf o y) (syndrome (bitsOf o y)) = bitsOf o (hamEncode o x)) :
    hamDecode o y = (x, syndrome (bitsOf o y)) := by
  have hk : 8 * payloadLen y.length = (bitsOf o x).length := by
    rw [hlen, hamEncode_length, payloadLen_codewordBytes, bitsOf_length]
  rw [hamDecode, h, hk, hamEncode, bitsOf_bytesOf, strip_append, strip_hamEncodeBits, List.take_left, bytesOf_bitsOf]

theorem positionXor_bitsOf_hamEncode : positionXor (bitsOf o (hamEncode o x)) = 0 := by
  rw [hamEncode, bitsOf_bytesOf, positionXor_append_zeros, positionXor_hamEncodeBits]

theorem hamDecode_hamEncode : hamDecode o (hamEncode o x) = (x, 0) := by
  have hs : syndrome (bitsOf o (hamEncode o x)) = 0 :=
    (syndrome_eq_positionXor _).trans (positionXor_bitsOf_hamEncode o x)
  rw [hamDecode_of_correct o x rfl (by rw [hs, correct_zero]), hs]

theorem hamDecode_flipStreamBit {k : Nat} (hk : k < 8 * (hamEncode o x).length) :
    hamDecode o (flipStreamBit o (hamEncode o x) k) = (x, k + 1) := by
  have hbytes := flipStreamBit_length o (hamEncode o x) hk
  have hread := bbRead_bitsOf_flipStreamBit o (hamEncode o x) k
  have hlen : (bitsOf o (flipStreamBit o (hamEncode o x) k)).length = (bitsOf o (hamEncode o x)).length := by
    rw [bitsOf_length, bitsOf_length, hbytes]
  rw [← bitsOf_length o] at hk
  have hs : syndrome (bitsOf o (flipStreamBit o (hamEncode o x) k)) = k + 1 := by
    rw [syndrome_eq_positionXor, positionXor_of_flip hlen hk hread, positionXor_bitsOf_hamEncode, Nat.zero_xor]
  rw [hamDecode_of_correct o x hbytes (by rw [hs, correct_of_flip hlen hk hread]), hs]

/-! ### HAM_DEC (R93) -/

theorem exec_hamDec {s : State} (hw : s.inWritten = true) (hle : s.IN.length ≤ s.params.bufCap) :
    exec .hamDec s = .next { s with
      STATUS := if (hamDecode s.params.bitOrder s.IN).2 = 0 then .ok else .parityMismatch,
      OUT := (hamDecode s.params.bitOrder s.IN).1,
      FC := false, SYN := packSyn (hamDecode s.params.bitOrder s.IN).2, REM := 0#15 } := by
  rw [exec_of_OUT_le (i := .hamDec) hw ((hamDecRule_OUT_length_le s.params s.IN).trans hle),
    State.applyEffect_of_frames_nil rfl]
  simp only [ruleOf, hamDecRule, ne_eq, ite_not, finish_FC, finish_REM, finish_STATUS]

end Sys2Proof.Machine

namespace Sys2Proof.Proofs
open Sys2Proof.Machine

/-- Settles O39, by where the corrected index lies; a bit beyond the buffer only lengthens the stripped sequence. -/
theorem correctionInvertsOneBit : Obligations.CorrectionInvertsOneBit := by
  refine fun c s => ⟨fun h => h ▸ correct_zero c, correct_of_le, fun h => ?_⟩
  obtain ⟨grown, hgrown⟩ := exists_bbWrite_eq_append (Nat.le_sub_one_of_lt h) true
  have hlen := bbWrite_length c (s - 1) true
  rw [correct_of_lt h]
  refine ⟨by omega, bbRead_bbWrite_same c (s - 1) true, ?_, fun k hk => ?_⟩
  · rw [hgrown, List.take_left]
  · rw [hgrown, strip_append, List.take_append_of_le_length hk]

/-- Settles O41: HAM_DEC's OUT is never longer than IN, so within BUF_CAP the command completes. -/
theorem hamDecResult : Obligations.HamDecResult := fun _ hw hle => exec_hamDec hw hle

/-- Settles O42: a clean codeword's set positions XOR to 0, so a flip leaves its own position, and the correction
inverts that bit again. -/
theorem hammingCorrectsEverySingleFlip : Obligations.HammingCorrectsEverySingleFlip := by
  refine fun o x => ⟨hamDecode_hamEncode o x, fun j hj hle => ?_⟩
  obtain ⟨k, rfl⟩ := Nat.exists_eq_add_of_le' hj
  exact hamDecode_flipStreamBit o x hle

end Sys2Proof.Proofs
end

section
/-! PROOFS. The polynomial of a bit sequence determines the sequence of each length (R96), one round of the division
subtracts a multiple of G(x), and so 15 bits are the remainder exactly when their difference to A(x)·x^15 is a multiple
of G(x) (R97, R98). -/

namespace Sys2Proof.Machine

open Polynomial (X Monic)

variable {a : BitBuffer}

/-! ### The polynomial of a bit sequence (R96) -/

theorem bitsPoly_append (a b : BitBuffer) : bitsPoly (a ++ b) = bitsPoly a * X ^ b.length + bitsPoly b := by
  induction a with
  | nil => simp
  | cons x a ih => cases x <;> simp [ih, add_mul, pow_add, add_assoc]

@[simp] theorem bitsPoly_replicate_false (n : Nat) : bitsPoly (List.replicate n false) = 0 := by
  induction n with
  | zero => rfl
  | succ n ih => simp [List.replicate_succ, ih]

theorem degree_bitsPoly_lt (a : BitBuffer) : (bitsPoly a).degree < a.length := by
  rw [← Polynomial.mem_degreeLT]
  refine Submodule.sum_mem _ fun i hi => ?_
  split
  · rw [Polynomial.mem_degreeLT, Polynomial.degree_X_pow, Nat.cast_lt]
    have := Finset.mem_range.mp hi
    omega
  · exact Submodule.zero_mem _

theorem coeff_bitsPoly {i : Nat} (hi : i < a.length) :
    (bitsPoly a).coeff (a.length - 1 - i) = if bbRead a i then 1 else 0 := by
  rw [bitsPoly, Polynomial.finsetSum_coeff, Finset.sum_eq_single_of_mem i (Finset.mem_range.mpr hi)]
  · split <;> simp
  · intro k hk hki
    have hne : a.length - 1 - i ≠ a.length - 1 - k := by
      have := Finset.mem_range.mp hk
      omega
    split <;> simp [Polynomial.coeff_X_pow, hne]

theorem coeff_bitsPoly_eq_zero_iff {i : Nat} (hi : i < a.length) :
    (bitsPoly a).coeff (a.length - 1 - i) = 0 ↔ bbRead a i = false := by
  rw [coeff_bitsPoly hi]
  simp

theorem bitsPoly_inj {b : BitBuffer} (hlen : a.length = b.length) : bitsPoly a = bitsPoly b ↔ a = b := by
  refine ⟨fun h => bitBuffer_ext hlen fun i => ?_, fun h => h ▸ rfl⟩
  rcases Nat.lt_or_ge i a.length with hi | hi
  · rw [Bool.eq_iff_iff, ← not_iff_not, Bool.not_eq_true, Bool.not_eq_true, ← coeff_bitsPoly_eq_zero_iff hi,
      ← coeff_bitsPoly_eq_zero_iff (hlen ▸ hi), h, hlen]
  · rw [bbRead_of_le a hi, bbRead_of_le b (hlen ▸ hi)]

/-- An inverted bit adds one power of x. -/
theorem bitsPoly_of_flip {c c' : BitBuffer} {k : Nat} (hlen : c'.length = c.length) (hk : k < c.length)
    (hread : ∀ i, bbRead c' i = (bbRead c i ^^ decide (i = k))) :
    bitsPoly c' = bitsPoly c + X ^ (c.length - 1 - k) := by
  have hterm (i : Nat) : (if bbRead c' i then (X ^ (c.length - 1 - i) : Polynomial (ZMod 2)) else 0) =
      (if bbRead c i then X ^ (c.length - 1 - i) else 0) + if i = k then X ^ (c.length - 1 - i) else 0 := by
    rw [hread]
    cases bbRead c i <;> by_cases hik : i = k <;> simp [hik, CharTwo.add_self_eq_zero]
  simp only [bitsPoly, hlen, hterm]
  rw [Finset.sum_add_distrib, Finset.sum_ite_eq' _ k, if_pos (Finset.mem_range.mpr hk)]

/-! ### The division (R97) -/

theorem xorFront_length (w g : BitBuffer) : (xorFront w g).length = w.length := by
  induction w generalizing g with
  | nil => cases g <;> rfl
  | cons b w ih =>
    cases g with
    | nil => rfl
    | cons c g => simp [xorFront, ih]

/-- XORing `g` into the front adds its polynomial at the front's powers. -/
theorem bitsPoly_xorFront {w g : BitBuffer} (h : g.length ≤ w.length) :
    bitsPoly (xorFront w g) = bitsPoly w + bitsPoly g * X ^ (w.length - g.length) := by
  induction w generalizing g with
  | nil => simp [List.length_eq_zero_iff.mp (Nat.le_zero.mp h), xorFront]
  | cons b w ih =>
    cases g with
    | nil => simp [xorFront]
    | cons c g =>
      have h : g.length ≤ w.length := Nat.le_of_succ_le_succ h
      have htop : (if b ^^ c then (X ^ w.length : Polynomial (ZMod 2)) else 0) =
          (if b then X ^ w.length else 0) + if c then X ^ w.length else 0 := by
        cases b <;> cases c <;> simp [CharTwo.add_self_eq_zero]
      have hshift : (if c then (X ^ g.length : Polynomial (ZMod 2)) else 0) * X ^ (w.length - g.length) =
          if c then X ^ w.length else 0 := by
        rw [ite_mul, zero_mul, ← pow_add, Nat.add_sub_cancel' h]
      rw [xorFront, bitsPoly_cons, bitsPoly_cons, bitsPoly_cons, xorFront_length, ih h, List.length_cons,
        List.length_cons, Nat.add_sub_add_right, add_mul, hshift, htop]
      exact add_add_add_comm _ _ _ _

theorem crcGenBits_length : crcGenBits.length = 16 := by simp [crcGenBits, CRC_L]

theorem crcGenBits_eq_cons : crcGenBits = true :: crcGenBits.tail := by decide

/-- G(x) is x^15 and the polynomial of G's other bits. -/
theorem bitsPoly_crcGenBits_eq_add : bitsPoly crcGenBits = X ^ 15 + bitsPoly crcGenBits.tail := by
  conv_lhs => rw [crcGenBits_eq_cons, bitsPoly_cons, if_pos rfl, List.length_tail, crcGenBits_length]

theorem monic_bitsPoly_crcGenBits : Monic (bitsPoly crcGenBits) := by
  rw [bitsPoly_crcGenBits_eq_add]
  exact Polynomial.monic_X_pow_add (degree_bitsPoly_lt crcGenBits.tail)

theorem degree_bitsPoly_crcGenBits : (bitsPoly crcGenBits).degree = 15 := by
  rw [bitsPoly_crcGenBits_eq_add, Polynomial.degree_add_eq_left_of_degree_lt, Polynomial.degree_X_pow]
  · rfl
  · rw [Polynomial.degree_X_pow]
    exact degree_bitsPoly_lt crcGenBits.tail

theorem bitsPoly_modByMonic_of_length (h : a.length = 15) :
    (bitsPoly a).modByMonic (bitsPoly crcGenBits) = bitsPoly a := by
  rw [Polynomial.modByMonic_eq_self_iff monic_bitsPoly_crcGenBits, degree_bitsPoly_crcGenBits]
  exact (degree_bitsPoly_lt a).trans_eq (by rw [h]; rfl)

/-- One round of the division on a buffer whose leading bit is `b`, that bit dropped. -/
def crcRound (b : Bool) (rest : BitBuffer) : BitBuffer := if b then xorFront rest crcGenBits.tail else rest

theorem crcRounds_succ_cons (n : Nat) (b : Bool) (rest : BitBuffer) :
    crcRounds (n + 1) (b :: rest) = crcRounds n (crcRound b rest) := rfl

theorem crcRound_length (b : Bool) (rest : BitBuffer) : (crcRound b rest).length = rest.length := by
  rw [crcRound]
  split
  · exact xorFront_length ..
  · rfl

/-- One round subtracts a multiple of G(x) (R96). -/
theorem dvd_bitsPoly_sub_crcRound {n : Nat} (b : Bool) {rest : BitBuffer} (h : rest.length = n + 15) :
    bitsPoly crcGenBits ∣ bitsPoly (b :: rest) - bitsPoly (crcRound b rest) := by
  cases b with
  | false => simp [crcRound]
  | true =>
    have htail : crcGenBits.tail.length = 15 := by rw [List.length_tail, crcGenBits_length]
    refine ⟨X ^ n, ?_⟩
    rw [crcRound, if_pos rfl, bitsPoly_cons, if_pos rfl, bitsPoly_xorFront (by omega), htail, h, Nat.add_sub_cancel,
      bitsPoly_crcGenBits_eq_add, CharTwo.sub_eq_add, add_mul, ← pow_add, add_assoc, ← add_assoc (bitsPoly rest),
      CharTwo.add_self_eq_zero, zero_add, Nat.add_comm n]

theorem crcRounds_length {n : Nat} {w : BitBuffer} (h : w.length = n + 15) : (crcRounds n w).length = 15 := by
  induction n generalizing w with
  | zero => exact h.trans (Nat.zero_add 15)
  | succ n ih =>
    obtain ⟨b, rest, rfl⟩ := List.exists_cons_of_length_pos (l := w) (by omega)
    rw [crcRounds_succ_cons, ih (by rw [crcRound_length]; simpa [Nat.add_right_comm] using h)]

/-- The bits left after the rounds are the remainder modulo G(x). -/
theorem bitsPoly_crcRounds {n : Nat} {w : BitBuffer} (h : w.length = n + 15) :
    bitsPoly (crcRounds n w) = (bitsPoly w).modByMonic (bitsPoly crcGenBits) := by
  induction n generalizing w with
  | zero => exact (bitsPoly_modByMonic_of_length (h.trans (Nat.zero_add 15))).symm
  | succ n ih =>
    obtain ⟨b, rest, rfl⟩ := List.exists_cons_of_length_pos (l := w) (by omega)
    have hrest : rest.length = n + 15 := by simpa [Nat.add_right_comm] using h
    rw [crcRounds_succ_cons, ih ((crcRound_length b rest).trans hrest),
      Polynomial.modByMonic_eq_of_dvd_sub monic_bitsPoly_crcGenBits (dvd_bitsPoly_sub_crcRound b hrest)]

@[simp] theorem crcDivide_length (a : BitBuffer) : (crcDivide a).length = 15 := crcRounds_length (by simp [CRC_L])

/-- R(x) is the remainder of A(x)·x^15 divided by G(x) (R98). -/
theorem bitsPoly_crcDivide (a : BitBuffer) :
    bitsPoly (crcDivide a) = (bitsPoly a * X ^ 15).modByMonic (bitsPoly crcGenBits) := by
  rw [crcDivide, bitsPoly_crcRounds (by simp [CRC_L]), bitsPoly_append, bitsPoly_replicate_false, add_zero,
    List.length_replicate, CRC_L]

/-- Fifteen bits are the remainder exactly when subtracting them leaves a multiple of G(x). -/
theorem crcDivide_eq_iff_dvd {r : BitBuffer} (hr : r.length = 15) :
    crcDivide a = r ↔ bitsPoly crcGenBits ∣ bitsPoly a * X ^ 15 - bitsPoly r := by
  rw [← Polynomial.modByMonic_eq_zero_iff_dvd monic_bitsPoly_crcGenBits, Polynomial.sub_modByMonic,
    bitsPoly_modByMonic_of_length hr, sub_eq_zero, ← bitsPoly_crcDivide, bitsPoly_inj (by rw [crcDivide_length, hr])]

/-! ### The factor x^2 of the generator (R98) -/

/-- G'(x), the generator without its factor x^2 (R98). -/
noncomputable def crcReducedGen : Polynomial (ZMod 2) :=
  X ^ 13 + X ^ 11 + X ^ 8 + X ^ 7 + X ^ 5 + X ^ 3 + X ^ 2 + X + 1

theorem bitsPoly_crcGenBits_eq_mul : bitsPoly crcGenBits = X ^ 2 * crcReducedGen := by
  rw [bitsPoly_crcGenBits, crcReducedGen]
  ring

/-- G'(x) has the term 1, so it has no factor in common with x. -/
theorem isCoprime_crcReducedGen_X_pow (n : Nat) : IsCoprime crcReducedGen (X ^ n) := by
  refine IsCoprime.pow_right ⟨1, -(X ^ 12 + X ^ 10 + X ^ 7 + X ^ 6 + X ^ 4 + X ^ 2 + X + 1), ?_⟩
  rw [crcReducedGen]
  ring

theorem crcReducedGen_dvd_mul_X_pow_iff {p : Polynomial (ZMod 2)} (n : Nat) :
    crcReducedGen ∣ p * X ^ n ↔ crcReducedGen ∣ p :=
  ⟨(isCoprime_crcReducedGen_X_pow n).dvd_of_dvd_mul_right, fun h => h.mul_right _⟩

/-- G'(x) divides no power of x: it would be a unit, and it has degree 13. -/
theorem not_crcReducedGen_dvd_X_pow (n : Nat) : ¬ crcReducedGen ∣ X ^ n := by
  intro h
  have hdeg : crcReducedGen.degree = 13 := by
    rw [crcReducedGen]
    compute_degree!
  have hunit := Polynomial.degree_eq_zero_of_isUnit ((isCoprime_crcReducedGen_X_pow n).isUnit_of_dvd' dvd_rfl h)
  rw [hdeg] at hunit
  exact absurd hunit (by decide)

/-- r[13] = r[14] = 0: A(x)·x^15 and G(x) are both multiples of x^2, so the remainder is. -/
theorem bbRead_crcDivide_eq_false (a : BitBuffer) {j : Nat} (hj : 13 ≤ j) : bbRead (crcDivide a) j = false := by
  rcases Nat.lt_or_ge j 15 with hj' | hj'
  · have hG : X ^ 2 ∣ bitsPoly a * X ^ 15 - bitsPoly (crcDivide a) :=
      (Dvd.intro _ bitsPoly_crcGenBits_eq_mul.symm).trans ((crcDivide_eq_iff_dvd (crcDivide_length a)).mp rfl)
    have hA : (X ^ 2 : Polynomial (ZMod 2)) ∣ bitsPoly a * X ^ 15 := (pow_dvd_pow X (by decide)).mul_left _
    have hR := (dvd_sub_right hA).mp hG
    rw [← coeff_bitsPoly_eq_zero_iff (by simpa using hj')]
    exact Polynomial.X_pow_dvd_iff.mp hR _ (by rw [crcDivide_length]; omega)
  · exact bbRead_of_le _ (by simpa using hj')

end Sys2Proof.Machine

namespace Sys2Proof.Proofs
open Sys2Proof.Machine

/-- Settles O46: each round subtracts a multiple of G(x), so the 15 bits left are the remainder, a multiple of x^2. -/
theorem crcRemainderIsPolynomialRemainder : Obligations.CrcRemainderIsPolynomialRemainder := by
  refine ⟨bitsPoly_crcGenBits.symm.trans bitsPoly_crcGenBits_eq_mul, fun a => ⟨?_, ?_, ?_⟩⟩
  · rw [bitsPoly_crcDivide, bitsPoly_crcGenBits]
  · exact bbRead_crcDivide_eq_false a (by decide)
  · exact bbRead_crcDivide_eq_false a (by decide)

end Sys2Proof.Proofs
end

section
/-! PROOFS. The division in place (R97). After `k` rounds the buffer is `k` bits that are passed, followed by what the
machine's rounds hold. -/

namespace Sys2Proof.Machine

/-! ### The working buffer -/

theorem bbWrite_length_self (b : BitBuffer) (v : Bool) : bbWrite b b.length v = b ++ [v] := by simp [bbWrite]

/-- Writing `n` zeros one after the other behind the buffer appends them. -/
theorem foldl_bbWrite_false (a : BitBuffer) (n : Nat) :
    (List.range n).foldl (fun w z => bbWrite w (a.length + z) false) a = a ++ List.replicate n false := by
  induction n with
  | zero => simp
  | succ n ih =>
    have hwrite := bbWrite_length_self (a ++ List.replicate n false) false
    rw [List.length_append, List.length_replicate] at hwrite
    rw [List.range_succ, List.foldl_append, ih, List.foldl_cons, List.foldl_nil, hwrite, List.append_assoc,
      List.replicate_succ']

/-! ### One window -/

/-- The front of the window after the generator's first bit is XORed in: the leading 1 is cleared, as G[0] = 1. -/
theorem xorFront_true_cons (rest : BitBuffer) :
    xorFront (true :: rest) crcGenBits = false :: xorFront rest crcGenBits.tail := by
  rw [crcGenBits_eq_cons]
  rfl

theorem bbRead_xorFront {w g : BitBuffer} (h : g.length ≤ w.length) (i : Nat) :
    bbRead (xorFront w g) i = (bbRead w i ^^ bbRead g i) := by
  induction w generalizing g i with
  | nil => simp [List.length_eq_zero_iff.mp (Nat.le_zero.mp h), xorFront, bbRead]
  | cons b w ih =>
    cases g with
    | nil => simp [xorFront, bbRead]
    | cons c g =>
      cases i with
      | zero => rfl
      | succ i => exact ih (Nat.le_of_succ_le_succ h) i

/-- The first `n` positions of a window, each XORed in place with the generator's bit. -/
def xorWindowTo (n : Nat) (w : BitBuffer) (idx : Nat) : BitBuffer :=
  (List.range n).foldl (fun w j => bbWrite w (idx + j) (bbRead w (idx + j) ^^ CRC_GEN.getLsbD (15 - j))) w

theorem xorWindow_eq (w : BitBuffer) (idx : Nat) : xorWindow w idx = xorWindowTo 16 w idx := rfl

theorem xorWindowTo_succ (n : Nat) (w : BitBuffer) (idx : Nat) : xorWindowTo (n + 1) w idx =
    bbWrite (xorWindowTo n w idx) (idx + n) (bbRead (xorWindowTo n w idx) (idx + n) ^^ CRC_GEN.getLsbD (15 - n)) := by
  rw [xorWindowTo, List.range_succ, List.foldl_append]
  rfl

theorem xorWindowTo_length {n idx : Nat} {w : BitBuffer} (h : idx + n ≤ w.length) :
    (xorWindowTo n w idx).length = w.length := by
  induction n with
  | zero => rfl
  | succ n ih =>
    rw [xorWindowTo_succ, bbWrite_length, ih (by omega)]
    omega

theorem bbRead_xorWindowTo (n : Nat) (w : BitBuffer) (idx i : Nat) : bbRead (xorWindowTo n w idx) i =
    (bbRead w i ^^ (decide (idx ≤ i ∧ i < idx + n) && CRC_GEN.getLsbD (15 - (i - idx)))) := by
  induction n generalizing i with
  | zero =>
    rw [decide_eq_false (by omega), Bool.false_and, Bool.xor_false]
    rfl
  | succ n ih =>
    rw [xorWindowTo_succ]
    rcases eq_or_ne i (idx + n) with rfl | hi
    · simp [ih]
    · have hiff : (idx ≤ i ∧ i < idx + (n + 1)) ↔ (idx ≤ i ∧ i < idx + n) := by omega
      rw [bbRead_bbWrite_ne _ _ hi, ih, decide_eq_decide.mpr hiff]

/-- XORing the generator into a window in place is XORing it into what follows the passed bits. -/
theorem xorWindow_append {pre w : BitBuffer} (h : 16 ≤ w.length) :
    xorWindow (pre ++ w) pre.length = pre ++ xorFront w crcGenBits := by
  refine bitBuffer_ext ?_ fun i => ?_
  · rw [xorWindow_eq, xorWindowTo_length (by simpa using h), List.length_append, List.length_append, xorFront_length]
  · rw [xorWindow_eq, bbRead_xorWindowTo]
    rcases Nat.lt_or_ge i pre.length with hi | hi
    · rw [bbRead_append_left _ hi, bbRead_append_left _ hi]
      simp [Nat.not_le_of_lt hi]
    · obtain ⟨k, rfl⟩ := Nat.exists_eq_add_of_le hi
      rw [bbRead_append_right _ hi, bbRead_append_right _ hi, Nat.add_sub_cancel_left,
        bbRead_xorFront (crcGenBits_length.trans_le h)]
      rcases Nat.lt_or_ge k 16 with hk | hk
      · rw [bbRead_crcGenBits (Nat.le_of_lt_succ hk)]
        simp [hk]
      · rw [bbRead_of_le crcGenBits (crcGenBits_length.trans_le hk)]
        simp [Nat.not_lt_of_le hk]

/-! ### The rounds -/

/-- One round of the in-place division at index `idx`. -/
def inPlaceRound (w : BitBuffer) (idx : Nat) : BitBuffer := if bbRead w idx then xorWindow w idx else w

/-- A round in place leaves the bit passed, which is 0, in front of what the machine's round holds. -/
theorem inPlaceRound_append (pre : BitBuffer) (b : Bool) {rest : BitBuffer} (h : 15 ≤ rest.length) :
    inPlaceRound (pre ++ b :: rest) pre.length = (pre ++ [false]) ++ crcRound b rest := by
  have hb : bbRead (pre ++ b :: rest) pre.length = b := by
    rw [bbRead_append_right _ (Nat.le_refl _), Nat.sub_self, bbRead_cons_zero]
  rw [inPlaceRound, hb, crcRound]
  cases b with
  | false => simp
  | true =>
    rw [if_pos rfl, if_pos rfl, xorWindow_append (w := true :: rest) (Nat.succ_le_succ h), xorFront_true_cons,
      List.append_assoc, List.singleton_append]

theorem foldl_inPlaceRound (n : Nat) (pre : BitBuffer) {w : BitBuffer} (h : w.length = n + 15) :
    ∃ passed, passed.length = pre.length + n ∧
      (List.range' pre.length n).foldl inPlaceRound (pre ++ w) = passed ++ crcRounds n w := by
  induction n generalizing pre w with
  | zero => exact ⟨pre, rfl, rfl⟩
  | succ n ih =>
    obtain ⟨b, rest, rfl⟩ := List.exists_cons_of_length_pos (l := w) (by omega)
    have hrest : rest.length = n + 15 := by simpa [Nat.add_right_comm] using h
    obtain ⟨passed, hlen, hfold⟩ := ih (pre ++ [false]) ((crcRound_length b rest).trans hrest)
    rw [List.length_append, List.length_singleton] at hlen hfold
    refine ⟨passed, by omega, ?_⟩
    rw [List.range'_succ, List.foldl_cons, inPlaceRound_append pre b (by omega), hfold, crcRounds_succ_cons]

/-- Reading one index after the other gives the buffer from there on. -/
theorem map_bbRead_append_right {pre w : BitBuffer} {n : Nat} (h : w.length = n) :
    ((List.range n).map fun j => bbRead (pre ++ w) (pre.length + j)) = w := by
  subst h
  refine List.ext_getElem (by simp) fun j _ hj => ?_
  simp [bbRead, hj]

theorem crcDivideInPlace_eq (a : BitBuffer) : crcDivideInPlace a = crcDivide a := by
  have hlen : (a ++ List.replicate 15 false).length = a.length + 15 := by simp
  obtain ⟨passed, hpassed, hfold⟩ : ∃ passed, passed.length = a.length ∧
      (List.range a.length).foldl inPlaceRound (a ++ List.replicate 15 false) = passed ++ crcDivide a := by
    simpa [List.range_eq_range', crcDivide, CRC_L] using foldl_inPlaceRound a.length [] hlen
  have hround : (fun w idx => if bbRead w idx then xorWindow w idx else w) = inPlaceRound := rfl
  rw [crcDivideInPlace]
  simp only [foldl_bbWrite_false, hlen, Nat.add_sub_cancel, hround, hfold]
  rw [← hpassed]
  exact map_bbRead_append_right (crcDivide_length a)

end Sys2Proof.Machine

namespace Sys2Proof.Proofs
open Sys2Proof.Machine

/-- Settles O45: round by round, the buffer in place is the passed bits followed by the machine's buffer. -/
theorem crcDivideIsInPlaceDivision : Obligations.CrcDivideIsInPlaceDivision :=
  fun a => ⟨(crcDivideInPlace_eq a).symm, crcDivide_length a⟩

end Sys2Proof.Proofs
end

section
/-! PROOFS. What the CRC accepts. Thirteen bits and the remainder's two zeros are the remainder of a buffer exactly when
G'(x) divides the polynomial of the buffer followed by the thirteen bits (R98, R109), so a buffer followed by those bits
and any zeros is accepted exactly then (R107). -/

namespace Sys2Proof.Machine

open Polynomial (X)

variable {a : BitBuffer}

/-! ### A zero remainder (R103, R109) -/

theorem crcDivide_eq_append_iff {d : BitBuffer} (hd : d.length = 13) :
    crcDivide a = d ++ List.replicate 2 false ↔ crcReducedGen ∣ bitsPoly a * X ^ 13 + bitsPoly d := by
  have hsplit : bitsPoly a * X ^ 15 - bitsPoly d * X ^ 2 = X ^ 2 * (bitsPoly a * X ^ 13 + bitsPoly d) := by
    rw [CharTwo.sub_eq_add]
    ring
  rw [crcDivide_eq_iff_dvd (by simp [hd]), bitsPoly_append, bitsPoly_replicate_false, add_zero, List.length_replicate,
    hsplit, bitsPoly_crcGenBits_eq_mul, mul_dvd_mul_iff_left (pow_ne_zero 2 Polynomial.X_ne_zero)]

theorem crcDivide_eq_zeros_iff_dvd (a : BitBuffer) :
    crcDivide a = List.replicate 15 false ↔ crcReducedGen ∣ bitsPoly a := by
  have hzeros : List.replicate 15 false = List.replicate 13 false ++ List.replicate 2 false := rfl
  rw [hzeros, crcDivide_eq_append_iff List.length_replicate, bitsPoly_replicate_false, add_zero,
    crcReducedGen_dvd_mul_X_pow_iff]

/-- The remainder's own bits appended, with any number of zeros behind them, leave no remainder (R107). -/
theorem crcDivide_append_eq_zeros_iff {d : BitBuffer} (hd : d.length = 13) (n : Nat) :
    crcDivide (a ++ (d ++ List.replicate n false)) = List.replicate 15 false ↔
      crcDivide a = d ++ List.replicate 2 false := by
  rw [crcDivide_eq_zeros_iff_dvd, crcDivide_eq_append_iff hd, ← List.append_assoc, bitsPoly_append,
    bitsPoly_replicate_false, add_zero, crcReducedGen_dvd_mul_X_pow_iff, bitsPoly_append, hd]

/-- Zeros at the end do not change whether there is a remainder. -/
theorem crcDivide_append_replicate_eq_zeros_iff (a : BitBuffer) (n : Nat) :
    crcDivide (a ++ List.replicate n false) = List.replicate 15 false ↔ crcDivide a = List.replicate 15 false := by
  rw [crcDivide_eq_zeros_iff_dvd, crcDivide_eq_zeros_iff_dvd, bitsPoly_append, bitsPoly_replicate_false,
    add_zero, crcReducedGen_dvd_mul_X_pow_iff]

theorem crcDivide_eq_zeros_iff_bbRead (a : BitBuffer) :
    crcDivide a = List.replicate 15 false ↔ ∀ j, j ≤ 14 → bbRead (crcDivide a) j = false := by
  refine ⟨fun h j _ => ?_, fun h => bitBuffer_ext (by simp) fun j => ?_⟩
  · rw [h]
    exact bbRead_append_replicate_false [] 15 j
  · rw [← List.nil_append (List.replicate 15 false), bbRead_append_replicate_false, bbRead_of_le [] (Nat.zero_le j)]
    rcases Nat.lt_or_ge j 15 with hj | hj
    · exact h j (Nat.le_of_lt_succ hj)
    · exact bbRead_of_le _ (by simpa using hj)

/-- A buffer without a remainder has one once a bit is inverted: what the flip adds is a power of x (R108). -/
theorem crcDivide_ne_zeros_of_flip {c c' : BitBuffer} {k : Nat} (hlen : c'.length = c.length) (hk : k < c.length)
    (hread : ∀ i, bbRead c' i = (bbRead c i ^^ decide (i = k))) (hc : crcDivide c = List.replicate 15 false) :
    crcDivide c' ≠ List.replicate 15 false := by
  rw [crcDivide_eq_zeros_iff_dvd] at hc
  rw [ne_eq, crcDivide_eq_zeros_iff_dvd, bitsPoly_of_flip hlen hk hread, dvd_add_right hc]
  exact not_crcReducedGen_dvd_X_pow _

variable {o : BitOrder}

theorem crcAccept_fst_iff (o : BitOrder) (y : Bytes) :
    (crcAccept o y).1 = true ↔ crcDivide (bitsOf o y) = List.replicate 15 false := by
  rw [List.eq_replicate_iff]
  simp [crcAccept]

theorem crcAccept_snd (o : BitOrder) (y : Bytes) : (crcAccept o y).2 = crcDivide (bitsOf o y) := rfl

theorem crcAccept_of_fst {y : Bytes} (h : (crcAccept o y).1 = true) :
    crcAccept o y = (true, List.replicate 15 false) :=
  Prod.ext h ((crcAccept_snd o y).trans ((crcAccept_fst_iff o y).mp h))

theorem crcAccept_fst_eq_false_iff (o : BitOrder) (y : Bytes) :
    (crcAccept o y).1 = false ↔ ∃ j, j ≤ 14 ∧ bbRead (crcDivide (bitsOf o y)) j = true := by
  rw [← Bool.not_eq_true, crcAccept_fst_iff, crcDivide_eq_zeros_iff_bbRead]
  simp

end Sys2Proof.Machine

namespace Sys2Proof.Proofs
open Sys2Proof.Machine

/-- Settles O51: the appended zeros and the factor x^2 of G(x) are powers of x, which G'(x) has no factor in common
with. -/
theorem crcAcceptanceIsDivisibility : Obligations.CrcAcceptanceIsDivisibility :=
  fun o y => (crcAccept_fst_iff o y).trans (crcDivide_eq_zeros_iff_dvd _)

end Sys2Proof.Proofs
end

section
/-! PROOFS. The checksum. Its two untrimmed bytes are the only two bytes, the last three stream bits zero, with which a
payload is accepted (R102, R104, R107); from this come the checksum count (R104) and the round trip with its
collisions (R110). -/

namespace Sys2Proof.Machine

variable {o : BitOrder} {x : Bytes} {a b : Byte}

/-! ### Bits of bytes -/

theorem bitsOf_append (o : BitOrder) (s t : Bytes) : bitsOf o (s ++ t) = bitsOf o s ++ bitsOf o t :=
  List.flatMap_append

theorem byteBits_zero (o : BitOrder) : byteBits o 0#8 = List.replicate 8 false := by
  simp [byteBits]

/-- A packed byte's bits in buffer order are the bits it was packed from (R38). -/
theorem byteBits_packByte (o : BitOrder) (bit : Nat → Bool) : byteBits o (packByte o bit) = (List.range 8).map bit :=
  List.map_congr_left fun _ hj => getLsbD_packByte o bit (List.mem_range.mp hj)

theorem packByte_eq_zero_iff (o : BitOrder) (bit : Nat → Bool) :
    packByte o bit = 0#8 ↔ ∀ j, j < 8 → bit j = false := by
  rw [← (byteBits_injective o).eq_iff, byteBits_packByte, byteBits_zero, List.eq_replicate_iff]
  simp

/-- The masks of R104 test the stream bits 5, 6 and 7 of a byte. -/
theorem lastThreeZero_iff (o : BitOrder) (b : Byte) :
    lastThreeZero o b = true ↔ (byteBits o b).drop 5 = List.replicate 3 false := by
  cases o with
  | lsbFirst => revert b; decide
  | msbFirst => revert b; decide

theorem lastThreeZero_iff_masks (o : BitOrder) (b : Byte) : lastThreeZero o b = true ↔
    (o = .lsbFirst → b &&& 0xE0#8 = 0#8) ∧ (o = .msbFirst → b &&& 0x07#8 = 0#8) := by
  cases o <;> simp [lastThreeZero]

theorem exists_bitsOf_pair_eq_append (a : Byte) (hb : lastThreeZero o b = true) :
    ∃ d, d.length = 13 ∧ bitsOf o [a, b] = d ++ List.replicate 3 false := by
  refine ⟨byteBits o a ++ (byteBits o b).take 5, by simp, ?_⟩
  rw [← (lastThreeZero_iff o b).mp hb, List.append_assoc, List.take_append_drop, bitsOf_cons, bitsOf_cons, bitsOf_nil,
    List.append_nil]

/-! ### The remainder's two bytes (R100, R102) -/

/-- The first byte of a remainder (R100). -/
def remFirst (o : BitOrder) (r : BitBuffer) : Byte := packByte o (bbRead r)

/-- The second byte of a remainder, its last stream bit the padding bit (R100). -/
def remSecond (o : BitOrder) (r : BitBuffer) : Byte := packByte o fun j => bbRead r (8 + j)

theorem bytesOf_crcDivide (o : BitOrder) (a : BitBuffer) :
    bytesOf o (crcDivide a) = [remFirst o (crcDivide a), remSecond o (crcDivide a)] := by
  simp [bytesOf, List.range_succ, remFirst, remSecond]

/-- r[13], r[14] and the padding bit are 0 (R102). -/
theorem lastThreeZero_remSecond (o : BitOrder) (a : BitBuffer) :
    lastThreeZero o (remSecond o (crcDivide a)) = true := by
  have hdrop : (byteBits o (remSecond o (crcDivide a))).drop 5 =
      [bbRead (crcDivide a) 13, bbRead (crcDivide a) 14, bbRead (crcDivide a) 15] := by
    rw [remSecond, byteBits_packByte]
    rfl
  rw [lastThreeZero_iff, hdrop, bbRead_crcDivide_eq_false a (by decide), bbRead_crcDivide_eq_false a (by decide),
    bbRead_crcDivide_eq_false a (by decide)]
  rfl

theorem remSecond_eq_zero_iff (o : BitOrder) (a : BitBuffer) :
    remSecond o (crcDivide a) = 0#8 ↔ ∀ j, 8 ≤ j → j ≤ 12 → bbRead (crcDivide a) j = false := by
  rw [remSecond, packByte_eq_zero_iff]
  refine ⟨fun h j hj _ => ?_, fun h j _ => ?_⟩
  · rw [← Nat.add_sub_cancel' hj]
    exact h (j - 8) (by omega)
  · rcases Nat.lt_or_ge j 5 with hj | hj
    · exact h (8 + j) (by omega) (by omega)
    · exact bbRead_crcDivide_eq_false a (by omega)

/-- A payload with two bytes behind it, the last three stream bits zero, is accepted exactly when the two bytes are the
payload's own remainder (R102, R107). -/
theorem crcAccept_append_pair_iff (x : Bytes) (a : Byte) (hb : lastThreeZero o b = true) :
    (crcAccept o (x ++ [a, b])).1 = true ↔ bytesOf o (crcDivide (bitsOf o x)) = [a, b] := by
  obtain ⟨d, hd, hbits⟩ := exists_bitsOf_pair_eq_append a hb
  have hpad : d ++ List.replicate 3 false = d ++ List.replicate 2 false ++ List.replicate 1 false := by
    rw [List.append_assoc, List.replicate_append_replicate]
  rw [crcAccept_fst_iff, bitsOf_append, hbits, crcDivide_append_eq_zeros_iff hd, ← (bitsOf_injective o).eq_iff,
    bitsOf_bytesOf, crcDivide_length, hbits, hpad]
  exact (List.append_left_inj _).symm

/-- A zero byte at the end does not change whether bytes are accepted. -/
theorem crcAccept_append_zero_iff (o : BitOrder) (y : Bytes) :
    (crcAccept o (y ++ [0#8])).1 = true ↔ (crcAccept o y).1 = true := by
  rw [crcAccept_fst_iff, crcAccept_fst_iff, bitsOf_append, bitsOf_cons, bitsOf_nil, List.append_nil, byteBits_zero,
    crcDivide_append_replicate_eq_zeros_iff]

/-! ### The checksum (R100, R102) -/

theorem crcChecksum_of_remSecond_eq_zero (h : remSecond o (crcDivide (bitsOf o x)) = 0#8) :
    crcChecksum o x = [remFirst o (crcDivide (bitsOf o x))] := by
  simp [crcChecksum, bytesOf_crcDivide, h]

theorem crcChecksum_of_remSecond_ne_zero (h : remSecond o (crcDivide (bitsOf o x)) ≠ 0#8) :
    crcChecksum o x = bytesOf o (crcDivide (bitsOf o x)) := by
  simp [crcChecksum, bytesOf_crcDivide, h]

theorem crcChecksum_length (o : BitOrder) (x : Bytes) : (crcChecksum o x).length =
    if remSecond o (crcDivide (bitsOf o x)) = 0#8 then 1 else 2 := by
  split
  · next h => rw [crcChecksum_of_remSecond_eq_zero h, List.length_singleton]
  · next h => rw [crcChecksum_of_remSecond_ne_zero h, bytesOf_length, crcDivide_length]

theorem crcChecksum_length_eq_one_iff :
    (crcChecksum o x).length = 1 ↔ remSecond o (crcDivide (bitsOf o x)) = 0#8 := by
  simp [crcChecksum_length]

theorem crcChecksum_cases (o : BitOrder) (x : Bytes) :
    (∃ b, crcChecksum o x = [b]) ∨ ∃ a b, crcChecksum o x = [a, b] := by
  by_cases h : remSecond o (crcDivide (bitsOf o x)) = 0#8
  · exact .inl ⟨_, crcChecksum_of_remSecond_eq_zero h⟩
  · exact .inr ⟨_, _, (crcChecksum_of_remSecond_ne_zero h).trans (bytesOf_crcDivide o _)⟩

theorem remSecond_of_bytesOf_eq_pair {r : BitBuffer} (h : bytesOf o (crcDivide r) = [a, b]) :
    remSecond o (crcDivide r) = b := by
  rw [bytesOf_crcDivide] at h
  exact (List.cons.inj (List.cons.inj h).2).1

theorem crcChecksum_eq_pair_iff_bytesOf :
    crcChecksum o x = [a, b] ↔ b ≠ 0#8 ∧ bytesOf o (crcDivide (bitsOf o x)) = [a, b] := by
  constructor
  · intro h
    have hne : remSecond o (crcDivide (bitsOf o x)) ≠ 0#8 := fun hz => by
      simpa [h] using crcChecksum_length_eq_one_iff.mpr hz
    rw [crcChecksum_of_remSecond_ne_zero hne] at h
    exact ⟨remSecond_of_bytesOf_eq_pair h ▸ hne, h⟩
  · rintro ⟨hb, hbytes⟩
    rw [crcChecksum_of_remSecond_ne_zero (by rwa [remSecond_of_bytesOf_eq_pair hbytes]), hbytes]

/-- A payload's checksum is two bytes exactly when they complete it to an accepted sequence, the second of them not zero
and with its last three stream bits zero (R104). -/
theorem crcChecksum_eq_pair_iff : crcChecksum o x = [a, b] ↔
    b ≠ 0#8 ∧ lastThreeZero o b = true ∧ (crcAccept o (x ++ [a, b])).1 = true := by
  rw [crcChecksum_eq_pair_iff_bytesOf, and_congr_right_iff]
  intro _
  constructor
  · intro hbytes
    have hlast := remSecond_of_bytesOf_eq_pair hbytes ▸ lastThreeZero_remSecond o (bitsOf o x)
    exact ⟨hlast, (crcAccept_append_pair_iff x a hlast).mpr hbytes⟩
  · rintro ⟨hlast, hacc⟩
    exact (crcAccept_append_pair_iff x a hlast).mp hacc

/-- Every payload with its checksum is accepted: untrimmed it is completed by its own remainder, and the byte trimmed is
zero (R107). -/
theorem crcAccept_append_crcChecksum (o : BitOrder) (x : Bytes) : (crcAccept o (x ++ crcChecksum o x)).1 = true := by
  have hpair := (crcAccept_append_pair_iff x _ (lastThreeZero_remSecond o _)).mpr (bytesOf_crcDivide o (bitsOf o x))
  by_cases h : remSecond o (crcDivide (bitsOf o x)) = 0#8
  · rw [crcChecksum_of_remSecond_eq_zero h, ← crcAccept_append_zero_iff, List.append_assoc]
    rwa [h] at hpair
  · rwa [crcChecksum_of_remSecond_ne_zero h, bytesOf_crcDivide]

/-! ### The checksum's length on decoding (R104) -/

theorem crcCount_concat (o : BitOrder) (front : Bytes) (b : Byte) : crcCount o (front ++ [b]) =
    if front ≠ [] ∧ b ≠ 0#8 ∧ lastThreeZero o b = true then 2 else 1 := by
  simp [crcCount, Nat.succ_le_succ_iff, Nat.one_le_iff_ne_zero]

theorem crcCount_concat_eq_two_iff (o : BitOrder) (front : Bytes) (b : Byte) :
    crcCount o (front ++ [b]) = 2 ↔ front ≠ [] ∧ b ≠ 0#8 ∧ lastThreeZero o b = true := by
  rw [crcCount_concat]
  exact Ne.ite_eq_left_iff (by decide)

theorem crcCount_eq_one_of_ne_two (o : BitOrder) (y : Bytes) (h : crcCount o y ≠ 2) : crcCount o y = 1 :=
  if_neg fun htwo => h (if_pos htwo)

/-- For an accepted sequence the count is 2 exactly when it is an untrimmed encoding (R104). -/
theorem crcCount_append_pair_eq_two_iff (h : (crcAccept o (x ++ [a, b])).1 = true) :
    crcCount o (x ++ [a, b]) = 2 ↔ crcChecksum o x = [a, b] := by
  rw [List.append_cons, crcCount_concat_eq_two_iff, crcChecksum_eq_pair_iff]
  simp [h]

theorem crcCollides_of_pair (h : crcChecksum o x = [a, b]) : crcCollides o x = false := by
  simp [crcCollides, h]

theorem crcCollides_iff_of_singleton (h : crcChecksum o x = [b]) :
    crcCollides o x = true ↔ x ≠ [] ∧ b ≠ 0#8 ∧ lastThreeZero o b = true := by
  simp [crcCollides, h]

/-- Outside the collision set the count is the length of the checksum (R110). -/
theorem crcCount_append_crcChecksum (h : crcCollides o x = false) :
    crcCount o (x ++ crcChecksum o x) = (crcChecksum o x).length := by
  rcases crcChecksum_cases o x with ⟨b, hcs⟩ | ⟨a, b, hcs⟩
  · rw [hcs, List.length_singleton]
    refine crcCount_eq_one_of_ne_two o _ ?_
    rw [ne_eq, crcCount_concat_eq_two_iff, ← crcCollides_iff_of_singleton hcs, h]
    decide
  · have hacc := crcAccept_append_crcChecksum o x
    rw [hcs] at hacc ⊢
    exact (crcCount_append_pair_eq_two_iff hacc).mpr hcs

/-- A colliding payload's wire bytes are those of the payload without its last byte, and the count is that of the
shorter payload's checksum (R110). -/
theorem wire_of_crcCollides (h : crcCollides o x = true) :
    x ++ crcChecksum o x = x.dropLast ++ crcChecksum o x.dropLast ∧ crcCollides o x.dropLast = false := by
  rcases crcChecksum_cases o x with ⟨b, hcs⟩ | ⟨a, b, hcs⟩
  · obtain ⟨hx, hb, hlast⟩ := (crcCollides_iff_of_singleton hcs).mp h
    have hwire : x ++ [b] = x.dropLast ++ [x.getLast hx, b] := by
      rw [List.append_cons x.dropLast, List.dropLast_append_getLast]
    have hacc := crcAccept_append_crcChecksum o x
    rw [hcs, hwire] at hacc
    have hshort : crcChecksum o x.dropLast = [x.getLast hx, b] := crcChecksum_eq_pair_iff.mpr ⟨hb, hlast, hacc⟩
    exact ⟨by rw [hcs, hwire, hshort], crcCollides_of_pair hshort⟩
  · rw [crcCollides_of_pair hcs] at h
    exact absurd h Bool.false_ne_true

/-! ### Decoding (R105) -/

theorem crcDecode_of_accepted {y : Bytes} (hy : y ≠ []) (h : (crcAccept o y).1 = true) :
    crcDecode o y = (some (y.take (y.length - crcCount o y)), List.replicate 15 false) := by
  rw [crcDecode, crcAccept_of_fst h]
  simp [hy]

theorem crcDecode_of_rejected {y : Bytes} (h : y = [] ∨ (crcAccept o y).1 = false) :
    crcDecode o y = (none, crcDivide (bitsOf o y)) := by
  rcases h with rfl | h
  · rfl
  · rw [← crcAccept_snd]
    exact if_pos h

theorem append_crcChecksum_ne_nil (o : BitOrder) (x : Bytes) : x ++ crcChecksum o x ≠ [] := by
  rcases crcChecksum_cases o x with ⟨b, hcs⟩ | ⟨a, b, hcs⟩
  · simp [hcs]
  · simp [hcs]

theorem crcDecode_append_crcChecksum (h : crcCollides o x = false) :
    crcDecode o (x ++ crcChecksum o x) = (some x, List.replicate 15 false) := by
  rw [crcDecode_of_accepted (append_crcChecksum_ne_nil o x) (crcAccept_append_crcChecksum o x),
    crcCount_append_crcChecksum h, List.length_append, Nat.add_sub_cancel, List.take_left]

theorem crcAccept_flipStreamBit {y : Bytes} (h : (crcAccept o y).1 = true) {k : Nat} (hk : k < 8 * y.length) :
    (crcAccept o (flipStreamBit o y k)).1 = false := by
  have hlen : (bitsOf o (flipStreamBit o y k)).length = (bitsOf o y).length := by
    rw [bitsOf_length, bitsOf_length, flipStreamBit_length o y hk]
  rw [← Bool.not_eq_true, crcAccept_fst_iff]
  exact crcDivide_ne_zeros_of_flip hlen (by rwa [bitsOf_length]) (bbRead_bitsOf_flipStreamBit o y k)
    ((crcAccept_fst_iff o y).mp h)

end Sys2Proof.Machine

namespace Sys2Proof.Proofs
open Sys2Proof.Machine

/-- Settles O48: the checksum goes by the remainder's second byte, of which the last three stream bits are always 0. -/
theorem checksumForm : Obligations.ChecksumForm := by
  refine fun o x => ⟨crcChecksum_length_eq_one_iff.trans (remSecond_eq_zero_iff o _),
    fun h => crcChecksum_of_remSecond_eq_zero (crcChecksum_length_eq_one_iff.mp h), fun h => ?_⟩
  have hne : remSecond o (crcDivide (bitsOf o x)) ≠ 0#8 := fun hz => h (crcChecksum_length_eq_one_iff.mpr hz)
  obtain ⟨hlsb, hmsb⟩ := (lastThreeZero_iff_masks o _).mp (lastThreeZero_remSecond o (bitsOf o x))
  exact ⟨_, hne, rfl, hlsb, hmsb, (crcChecksum_of_remSecond_ne_zero hne).trans (bytesOf_crcDivide o _)⟩

/-- Settles O49: the payload's own remainder completes it to a multiple of G'(x), and a trimmed byte is zero. -/
theorem crcAcceptsOwnChecksum : Obligations.CrcAcceptsOwnChecksum :=
  fun o x => crcAccept_of_fst (crcAccept_append_crcChecksum o x)

/-- Settles O50: the flip adds a power of x, which is no multiple of G'(x). -/
theorem crcRejectsEverySingleFlip : Obligations.CrcRejectsEverySingleFlip := by
  intro o x j hj hle
  have hrej := crcAccept_flipStreamBit (crcAccept_append_crcChecksum o x) (k := j - 1) (by omega)
  exact ⟨(crcAccept_fst_eq_false_iff o _).mp hrej, congrArg Prod.fst (crcDecode_of_rejected (.inr hrej))⟩

/-- Settles O52: the two bytes that complete a payload, the last three stream bits zero, are its own remainder. -/
theorem checksumCountOnAcceptance : Obligations.ChecksumCountOnAcceptance := by
  refine fun o front b hacc => ⟨?_, crcCount_eq_one_of_ne_two o _, ?_⟩
  · rw [crcCount_concat_eq_two_iff, lastThreeZero_iff_masks]
  · rintro x a rfl
    rw [← List.append_cons] at hacc ⊢
    exact crcCount_append_pair_eq_two_iff hacc

/-- Settles O53: a colliding payload's wire bytes are the untrimmed encoding of a payload that does not collide. -/
theorem crcRoundTripAndCollisions : Obligations.CrcRoundTripAndCollisions := by
  refine fun o x => ⟨crcDecode_append_crcChecksum, fun h => ?_⟩
  obtain ⟨hwire, hshort⟩ := wire_of_crcCollides h
  exact ⟨by rw [hwire, crcDecode_append_crcChecksum hshort], hwire⟩

end Sys2Proof.Proofs
end

section
/-! PROOFS. The commands CRC_ENC and CRC_DEC (R101, R106). -/

namespace Sys2Proof.Machine

variable {s : State}

theorem exec_crcEnc_of_le (hw : s.inWritten = true)
    (hle : s.IN.length + (crcChecksum s.params.bitOrder s.IN).length ≤ s.params.bufCap) :
    exec .crcEnc s = .next { s with
      STATUS := .ok, OUT := s.IN ++ crcChecksum s.params.bitOrder s.IN, FC := false, SYN := 0#16,
      REM := packRem (crcDivide (bitsOf s.params.bitOrder s.IN)) } := by
  rw [exec_of_OUT_le (i := .crcEnc) hw (List.length_append.trans_le hle), State.applyEffect_of_frames_nil rfl]
  rfl

/-- CRC_DEC's OUT is never longer than IN, so within BUF_CAP it completes. -/
theorem exec_crcDec (hw : s.inWritten = true) (hle : s.IN.length ≤ s.params.bufCap) :
    exec .crcDec s = .next (s.applyEffect (crcDecRule s.params s.IN)) :=
  exec_of_OUT_le (i := .crcDec) hw ((crcDecRule_OUT_length_le s.params s.IN).trans hle)

theorem packRem_zeros : packRem (List.replicate 15 false) = 0#15 := by decide

theorem crcDecRule_of_accepted {p : Params} {y : Bytes} (hy : y ≠ []) (h : (crcAccept p.bitOrder y).1 = true) :
    crcDecRule p y = { finish .ok with OUT := y.take (y.length - crcCount p.bitOrder y) } := by
  rw [crcDecRule, crcDecode_of_accepted hy h]
  simp only [packRem_zeros, finish]

theorem crcDecRule_of_rejected {p : Params} {y : Bytes} (h : y = [] ∨ (crcAccept p.bitOrder y).1 = false) :
    crcDecRule p y = { fail .checksumMismatch with REM := packRem (crcDivide (bitsOf p.bitOrder y)) } := by
  rw [crcDecRule, crcDecode_of_rejected h]

end Sys2Proof.Machine

namespace Sys2Proof.Proofs
open Sys2Proof.Machine

/-- Settles O43: the command goes by the length of IN with its checksum, of one or two bytes. -/
theorem crcEncResult : Obligations.CrcEncResult := by
  refine fun s hw hle => ⟨exec_crcEnc_of_le hw hle, ?_⟩
  rw [crcChecksum_length]
  split
  · exact .inl rfl
  · exact .inr rfl

/-- Settles O44: IN is rejected when it is empty or some bit of its remainder is 1, and accepted otherwise. -/
theorem crcDecResult : Obligations.CrcDecResult := by
  refine fun s hw hle => ⟨fun hne hrem => ?_, fun hrej => ?_⟩
  · have hacc := (crcAccept_fst_iff s.params.bitOrder s.IN).mpr ((crcDivide_eq_zeros_iff_bbRead _).mpr hrem)
    rw [exec_crcDec hw hle, crcDecRule_of_accepted hne hacc, State.applyEffect_of_frames_nil rfl]
    rfl
  · have hrej' := hrej.imp_right (crcAccept_fst_eq_false_iff s.params.bitOrder s.IN).mpr
    rw [exec_crcDec hw hle, crcDecRule_of_rejected hrej', State.applyEffect_of_frames_nil rfl]
    rfl

end Sys2Proof.Proofs
end

section
/-! PROOFS. The receive path (R112): a framing failure ends it, and else the codec's decoder has the unwrapped bytes.
From this come the commands HAM_PROC and CRC_PROC (R113, R114). -/

namespace Sys2Proof.Machine

variable {codec : Codec} {p : Params} {buf m : Bytes} {s : State}

/-! ### ProcessFrame (R112) -/

theorem processFrame_of_error {e : FrameFailure} (h : unwrap buf = .error e) :
    processFrame codec p buf = finish e.status := by
  rw [processFrame, h]
  exact fail_eq_finish _

theorem processFrame_of_ok (h : unwrap buf = .ok m) : processFrame codec p buf = decodeRule codec p m := by
  rw [processFrame, h]

theorem processFrame_wrap (codec : Codec) (p : Params) (m : Bytes) :
    processFrame codec p (wrap m) = decodeRule codec p m := processFrame_of_ok (unwrap_wrap m)

/-! ### The decoders' effects, by what they decode (R92, R105) -/

theorem hamDecRule_of_hamDecode {payload : Bytes} {syn : Nat} (h : hamDecode p.bitOrder m = (payload, syn)) :
    hamDecRule p m =
      { finish (if syn = 0 then .ok else .parityMismatch) with OUT := payload, SYN := packSyn syn } := by
  rw [hamDecRule, h]
  simp only [ne_eq, ite_not]

/-- The remainder is that of the whole sequence, whatever is decoded (R105). -/
theorem crcDecode_snd (o : BitOrder) (y : Bytes) : (crcDecode o y).2 = crcDivide (bitsOf o y) := by
  by_cases hrej : y = [] ∨ (crcAccept o y).1 = false
  · rw [crcDecode_of_rejected hrej]
  · rw [not_or, Bool.not_eq_false] at hrej
    obtain ⟨hy, hacc⟩ := hrej
    rw [crcDecode_of_accepted hy hacc, (crcAccept_fst_iff o y).mp hacc]

theorem crcDecRule_of_none (h : (crcDecode p.bitOrder m).1 = none) :
    crcDecRule p m = { finish .checksumMismatch with REM := packRem (crcDivide (bitsOf p.bitOrder m)) } := by
  have hdec : crcDecode p.bitOrder m = (none, crcDivide (bitsOf p.bitOrder m)) := Prod.ext h (crcDecode_snd _ m)
  rw [crcDecRule, hdec]
  rfl

theorem crcDecRule_of_some {payload : Bytes} (h : (crcDecode p.bitOrder m).1 = some payload) :
    crcDecRule p m =
      { finish .ok with OUT := payload, REM := packRem (crcDivide (bitsOf p.bitOrder m)) } := by
  have hdec : crcDecode p.bitOrder m = (some payload, crcDivide (bitsOf p.bitOrder m)) :=
    Prod.ext h (crcDecode_snd _ m)
  rw [crcDecRule, hdec]

/-! ### The commands (R113, R114) -/

/-- A command of the receive path never outgrows IN, so within BUF_CAP it completes. -/
theorem exec_processFrame {i : Instr} (hi : ruleOf i = processFrame codec) (hw : s.inWritten = true)
    (hle : s.IN.length ≤ s.params.bufCap) :
    exec i s = .next (s.applyEffect (processFrame codec s.params s.IN)) := by
  rw [← hi]
  exact exec_of_OUT_le hw (hi ▸ (processFrame_OUT_length_le s.params s.IN codec).trans hle)

theorem exec_processFrame_of_error {i : Instr} (hi : ruleOf i = processFrame codec) (hw : s.inWritten = true)
    (hle : s.IN.length ≤ s.params.bufCap) {e : FrameFailure} (h : unwrap s.IN = .error e) :
    exec i s = .next { s with STATUS := e.status, OUT := [], FC := false, SYN := 0#16, REM := 0#15 } := by
  rw [exec_processFrame hi hw hle, processFrame_of_error h, State.applyEffect_of_frames_nil rfl]
  rfl

theorem exec_hamProc_of_ok (hw : s.inWritten = true) (hle : s.IN.length ≤ s.params.bufCap)
    (h : unwrap s.IN = .ok m) : exec .hamProc s = .next { s with
      STATUS := if (hamDecode s.params.bitOrder m).2 = 0 then .ok else .parityMismatch,
      OUT := (hamDecode s.params.bitOrder m).1, FC := false,
      SYN := packSyn (hamDecode s.params.bitOrder m).2, REM := 0#15 } := by
  rw [exec_processFrame (codec := .hamming) rfl hw hle, processFrame_of_ok h, decodeRule, hamDecRule_of_hamDecode rfl,
    State.applyEffect_of_frames_nil rfl]
  rfl

theorem exec_crcProc_of_none (hw : s.inWritten = true) (hle : s.IN.length ≤ s.params.bufCap)
    (h : unwrap s.IN = .ok m) (hdec : (crcDecode s.params.bitOrder m).1 = none) :
    exec .crcProc s = .next { s with
      STATUS := .checksumMismatch, OUT := [], FC := false, SYN := 0#16,
      REM := packRem (crcDivide (bitsOf s.params.bitOrder m)) } := by
  rw [exec_processFrame (codec := .crc) rfl hw hle, processFrame_of_ok h, decodeRule, crcDecRule_of_none hdec,
    State.applyEffect_of_frames_nil rfl]
  rfl

theorem exec_crcProc_of_some (hw : s.inWritten = true) (hle : s.IN.length ≤ s.params.bufCap)
    (h : unwrap s.IN = .ok m) {payload : Bytes} (hdec : (crcDecode s.params.bitOrder m).1 = some payload) :
    exec .crcProc s = .next { s with
      STATUS := .ok, OUT := payload, FC := false, SYN := 0#16,
      REM := packRem (crcDivide (bitsOf s.params.bitOrder m)) } := by
  rw [exec_processFrame (codec := .crc) rfl hw hle, processFrame_of_ok h, decodeRule, crcDecRule_of_some hdec,
    State.applyEffect_of_frames_nil rfl]
  rfl

end Sys2Proof.Machine

namespace Sys2Proof.Proofs
open Sys2Proof.Machine

/-- Settles O54: the command goes by the result of unwrap, and HamDecode's syndrome says which STATUS it leaves. -/
theorem hamProcResult : Obligations.HamProcResult :=
  fun _ hw hle => ⟨exec_processFrame_of_error (codec := .hamming) rfl hw hle,
    exec_processFrame_of_error (codec := .hamming) rfl hw hle, fun _ => exec_hamProc_of_ok hw hle⟩

/-- Settles O55: the command goes by the result of unwrap and then of CrcDecode, whose remainder is in REM either
way. -/
theorem crcProcResult : Obligations.CrcProcResult :=
  fun _ hw hle => ⟨exec_processFrame_of_error (codec := .crc) rfl hw hle,
    exec_processFrame_of_error (codec := .crc) rfl hw hle,
    fun _ hok => ⟨exec_crcProc_of_none hw hle hok, fun _ => exec_crcProc_of_some hw hle hok⟩⟩

end Sys2Proof.Proofs
end

section
/-! PROOFS. The chunks of a payload (R116), and the commands HAM_SEND and CRC_SEND, which transmit a frame for each
(R117 to R119). -/

namespace Sys2Proof.Machine

/-! ### Chunks (R116) -/

/-- `us` are the consecutive pieces of `x`: all of it when it has at most 8 bytes, and else its first 8 bytes before the
pieces of the rest. -/
inductive IsChunking : Bytes → List Bytes → Prop
  | short {x : Bytes} (h : x.length ≤ 8) : IsChunking x [x]
  | long {x : Bytes} {us : List Bytes} (h : 8 < x.length) (rest : IsChunking (x.drop 8) us) :
    IsChunking x (x.take 8 :: us)

/-- Each chunk but the last takes 8 bytes off, so more rounds than bytes are enough. -/
theorem isChunking_chunksFrom {fuel : Nat} {x : Bytes} (h : x.length < fuel) : IsChunking x (chunksFrom fuel x) := by
  induction fuel generalizing x with
  | zero => exact absurd h (Nat.not_lt_zero _)
  | succ fuel ih =>
    rw [chunksFrom, MAX_PAYLOAD]
    split
    · next hle => exact .short hle
    · next hlt => exact .long (Nat.not_le.mp hlt) (ih (by rw [List.length_drop]; omega))

theorem isChunking_chunks (x : Bytes) : IsChunking x (chunks x) := isChunking_chunksFrom (Nat.lt_succ_self _)

section
variable {x : Bytes} {us : List Bytes} (h : IsChunking x us)
include h

theorem IsChunking.flatten_eq : us.flatten = x := by
  induction h with
  | short _ => exact List.flatten_singleton
  | long _ _ ih => rw [List.flatten_cons, ih, List.take_append_drop]

theorem IsChunking.length_eq (hx : 0 < x.length) : us.length = (x.length + 7) / 8 := by
  induction h with
  | short hle => rw [List.length_singleton]; omega
  | long hlt _ ih =>
    rw [List.length_drop] at ih
    rw [List.length_cons, ih (by omega)]
    omega

theorem IsChunking.length_of_mem_dropLast {u : Bytes} (hu : u ∈ us.dropLast) : u.length = 8 := by
  induction h with
  | short _ => cases hu
  | @long x us hlt _ ih =>
    cases us with
    | nil => cases hu
    | cons v us =>
      rcases List.mem_cons.mp hu with rfl | hu
      · exact List.length_take_of_le hlt.le
      · exact ih hu

theorem IsChunking.length_of_mem_getLast? (hx : 0 < x.length) {u : Bytes} (hu : u ∈ us.getLast?) :
    1 ≤ u.length ∧ u.length ≤ 8 := by
  induction h with
  | short hle =>
    obtain rfl := Option.some.inj hu
    exact ⟨hx, hle⟩
  | @long x us hlt rest ih =>
    cases rest with
    | short _ | long _ _ => exact ih (by rw [List.length_drop]; omega) hu

end

/-! ### The send commands (R117 to R119) -/

/-- A send command writes no OUT, so after IN was written it always completes. -/
theorem exec_sendRule {codec : Codec} {i : Instr} (hi : ruleOf i = sendRule codec) {s : State}
    (hw : s.inWritten = true) : exec i s = .next { s with
      STATUS := .ok, OUT := [], FC := false, SYN := 0#16, REM := 0#15,
      TX := s.TX ++ sendFrames codec s.params.bitOrder s.IN } := by
  rw [exec_of_OUT_le hw (by rw [hi]; exact Nat.zero_le _), hi]
  rfl

end Sys2Proof.Machine

namespace Sys2Proof.Proofs
open Sys2Proof.Machine

/-- Settles O56: each fact holds of one chunk, and is kept when a chunk of 8 bytes is put in front. -/
theorem chunksSplitPayload : Obligations.ChunksSplitPayload :=
  ⟨rfl, fun x hx => ⟨(isChunking_chunks x).flatten_eq, (isChunking_chunks x).length_eq (List.length_pos_iff.mpr hx),
    fun _ => (isChunking_chunks x).length_of_mem_dropLast,
    fun _ => (isChunking_chunks x).length_of_mem_getLast? (List.length_pos_iff.mpr hx)⟩⟩

/-- Settles O57: the frames of a Hamming send are the wraps of the codewords' bytes. -/
theorem hamSendResult : Obligations.HamSendResult := fun _ hw => exec_sendRule (codec := .hamming) rfl hw

/-- Settles O58: the frames of a CRC send are the wraps of the chunks with their checksums. -/
theorem crcSendResult : Obligations.CrcSendResult := fun _ hw => exec_sendRule (codec := .crc) rfl hw

end Sys2Proof.Proofs
end

section
/-! PROOFS. The laws of the paths: what a sent frame is processed to over a clean channel (R120), and when one bit of
its unit is flipped (R121). Unwrap gives the decoder the unit, or the flipped unit, so both are the codecs' own laws. -/

namespace Sys2Proof.Machine

variable {p : Params} {u f : Bytes}

theorem isFrameComplete_wrap_of_getLast? {e : Bytes} (h : e.getLast? = some ESC_TAG) :
    isFrameComplete (wrap e) = false := by
  rw [← Bool.not_eq_true, isFrameComplete_wrap_iff]
  exact not_not_intro h

/-! ### The clean channel (R120) -/

theorem processFrame_hamming_clean (p : Params) (u : Bytes) :
    processFrame .hamming p (wrap (hamEncode p.bitOrder u)) = { finish .ok with OUT := u, SYN := 0#16 } := by
  rw [processFrame_wrap, decodeRule, hamDecRule_of_hamDecode (hamDecode_hamEncode p.bitOrder u)]
  rfl

/-- A unit with an all-zero remainder that decodes to `payload` leaves REM at its default. -/
theorem processFrame_crc_clean {e payload : Bytes}
    (h : crcDecode p.bitOrder e = (some payload, List.replicate 15 false)) :
    processFrame .crc p (wrap e) = { finish .ok with OUT := payload } := by
  rw [processFrame_wrap, decodeRule, crcDecRule, h]
  simp only [packRem_zeros, finish]

/-! ### One bit error (R121) -/

theorem processFrame_hamming_flip {k : Nat} (hk : k < 8 * (hamEncode p.bitOrder u).length)
    (h : unwrap f = .ok (flipStreamBit p.bitOrder (hamEncode p.bitOrder u) k)) :
    processFrame .hamming p f = { finish .parityMismatch with OUT := u, SYN := packSyn (k + 1) } := by
  rw [processFrame_of_ok h, decodeRule, hamDecRule_of_hamDecode (hamDecode_flipStreamBit p.bitOrder u hk),
    if_neg (Nat.succ_ne_zero k)]

theorem processFrame_crc_flip {k : Nat} (hk : k < 8 * (crcEncode p.bitOrder u).length)
    (h : unwrap f = .ok (flipStreamBit p.bitOrder (crcEncode p.bitOrder u) k)) :
    (processFrame .crc p f).STATUS = .checksumMismatch ∧ (processFrame .crc p f).OUT = [] := by
  have hrej := crcAccept_flipStreamBit (crcAccept_append_crcChecksum p.bitOrder u) hk
  rw [processFrame_of_ok h, decodeRule, crcEncode, crcDecRule_of_rejected (.inr hrej)]
  exact ⟨rfl, rfl⟩

end Sys2Proof.Machine

namespace Sys2Proof.Proofs
open Sys2Proof.Machine

/-- Settles O59: unwrap gives back the encoded chunk, to which the round trips of the codecs apply (R94, R110). -/
theorem cleanChannelDelivers : Obligations.CleanChannelDelivers := by
  refine fun p x => ⟨(isChunking_chunks x).flatten_eq, rfl, rfl, fun u _ => ?_⟩
  obtain ⟨hround, hcollide⟩ := crcRoundTripAndCollisions p.bitOrder u
  exact ⟨processFrame_hamming_clean p u, fun h => processFrame_crc_clean (hround h),
    fun h => processFrame_crc_clean (hcollide h).1, isFrameComplete_wrap_of_getLast?,
    isFrameComplete_wrap_of_getLast?⟩

/-- Settles O60: the decoder has the flipped unit, which Hamming corrects (R94) and the CRC rejects (R108). -/
theorem oneBitErrorOnChannel : Obligations.OneBitErrorOnChannel := by
  intro p u f j _ hj
  obtain ⟨k, rfl⟩ := Nat.exists_eq_add_of_le' hj
  exact ⟨processFrame_hamming_flip, processFrame_crc_flip⟩

end Sys2Proof.Proofs
end

section
/-! PROOFS. The outcome table (R123). Every command ends in a row of it (`outcomeRow`), and the triggers and records of
R123 are read off the row. -/

namespace Sys2Proof.Machine

variable {p : Params} {i : Instr} {x m : Bytes} {e : FrameFailure}

/-! ### The triggers, as results of unwrap and of the decoders -/

/-- The trigger of MISSING_START_TAG: no first byte, or another than the start tag (R75). -/
theorem unwrap_eq_missingStartTag_iff_nil_or_cons :
    unwrap x = .error .missingStartTag ↔ x = [] ∨ ∃ b rest, x = b :: rest ∧ b ≠ 0x7B#8 := by
  rw [unwrap_eq_missingStartTag_iff]
  cases x with
  | nil => simp
  | cons b rest => simp [START_TAG]

theorem exists_unwrap_eq_ok_iff : (∃ m, unwrap x = .ok m) ↔ ∃ (toks : List (Bool × Byte)) (rest : Bytes),
    toks.all tokenReadable = true ∧ x = [0x7B#8] ++ toks.flatMap tokenBytes ++ [0x7D#8] ++ rest := by
  constructor
  · rintro ⟨m, hm⟩
    obtain ⟨toks, rest, htoks, hx, -⟩ := unwrap_eq_ok_iff.mp hm
    exact ⟨toks, rest, htoks, hx⟩
  · rintro ⟨toks, rest, htoks, hx⟩
    exact ⟨_, unwrap_eq_ok_iff.mpr ⟨toks, rest, htoks, hx, rfl⟩⟩

/-- The trigger of MISSING_STOP_TAG: a start tag, and no tokens behind it that end in a stop tag (R75). -/
theorem unwrap_eq_missingStopTag_iff_not_exists :
    unwrap x = .error .missingStopTag ↔ x.head? = some 0x7B#8 ∧
      ¬ ∃ (toks : List (Bool × Byte)) (rest : Bytes), toks.all tokenReadable = true ∧
        x = [0x7B#8] ++ toks.flatMap tokenBytes ++ [0x7D#8] ++ rest := by
  have hhead : x.head? = some 0x7B#8 ↔ unwrap x ≠ .error .missingStartTag :=
    unwrap_eq_missingStartTag_iff.not_left.symm
  rw [← exists_unwrap_eq_ok_iff, hhead]
  cases unwrap x with
  | ok m => simp
  | error e => cases e <;> simp

/-- The positions in a mismatch set are positive, so only the empty one has the sum 0 (R88). -/
theorem syndrome_eq_zero_iff {c : BitBuffer} : syndrome c = 0 ↔ mismatchSet c = [] := by
  refine ⟨fun h => List.eq_nil_iff_forall_not_mem.mpr fun q hq => ?_, fun h => by rw [syndrome, h]; rfl⟩
  have hpos : 0 < q := (mem_parityPositions (List.mem_of_mem_filter hq)).1
  exact Nat.ne_of_gt hpos (List.sum_eq_zero_iff.mp h q hq)

theorem hamDecRule_of_mismatch (h : mismatchSet (bitsOf p.bitOrder m) ≠ []) :
    hamDecRule p m = { finish .parityMismatch with
      OUT := (hamDecode p.bitOrder m).1, SYN := BitVec.ofNat 16 (mismatchSet (bitsOf p.bitOrder m)).sum } := by
  rw [hamDecRule_of_hamDecode rfl, if_neg (mt syndrome_eq_zero_iff.mp h)]
  rfl

theorem hamDecRule_of_no_mismatch (h : mismatchSet (bitsOf p.bitOrder m) = []) :
    hamDecRule p m = { finish .ok with OUT := (hamDecode p.bitOrder m).1 } := by
  have hdec : hamDecode p.bitOrder m = ((hamDecode p.bitOrder m).1, 0) := Prod.ext rfl (syndrome_eq_zero_iff.mpr h)
  exact hamDecRule_of_hamDecode hdec

/-- The trigger of CHECKSUM_MISMATCH on a unit: it is empty, or some bit of its remainder is 1 (R105). -/
def ChecksumRejects (o : BitOrder) (m : Bytes) : Prop :=
  m = [] ∨ ∃ j, j ≤ 14 ∧ bbRead (crcDivide (bitsOf o m)) j = true

theorem crcDecRule_of_checksumRejects (h : ChecksumRejects p.bitOrder m) :
    crcDecRule p m = { finish .checksumMismatch with REM := packRem (crcDivide (bitsOf p.bitOrder m)) } :=
  crcDecRule_of_rejected (h.imp_right (crcAccept_fst_eq_false_iff _ _).mpr)

theorem crcDecRule_of_not_checksumRejects (h : ¬ ChecksumRejects p.bitOrder m) :
    crcDecRule p m = { finish .ok with OUT := m.take (m.length - crcCount p.bitOrder m) } := by
  obtain ⟨hne, hrem⟩ := not_or.mp h
  rw [← crcAccept_fst_eq_false_iff, Bool.not_eq_false] at hrem
  exact crcDecRule_of_accepted hne hrem

/-! ### What the rule of a command is, by the unit it decodes -/

/-- The commands that unwrap IN (R76, R112). -/
def UnwrapsIN (i : Instr) : Prop := i = .frmUnwrap ∨ i = .hamProc ∨ i = .crcProc

/-- The commands that decode a Hamming unit (R93, R113). -/
def DecodesHamming (i : Instr) : Prop := i = .hamDec ∨ i = .hamProc

/-- The commands that decode a CRC unit (R106, R114). -/
def DecodesCrc (i : Instr) : Prop := i = .crcDec ∨ i = .crcProc

theorem ruleOf_of_unwrap_error (hi : UnwrapsIN i) (h : unwrap x = .error e) : ruleOf i p x = finish e.status := by
  obtain rfl | rfl | rfl := hi
  · exact frmUnwrapRule_of_error (p := p) h
  · exact processFrame_of_error h
  · exact processFrame_of_error h

theorem decodedUnit_hamProc_eq_some : decodedUnit .hamProc x = some m ↔ unwrap x = .ok m := by
  rw [decodedUnit]
  cases unwrap x <;> simp

theorem decodedUnit_crcProc_eq_some : decodedUnit .crcProc x = some m ↔ unwrap x = .ok m :=
  decodedUnit_hamProc_eq_some

theorem ruleOf_of_decodesHamming (hi : DecodesHamming i) (hm : decodedUnit i x = some m) :
    ruleOf i p x = hamDecRule p m := by
  obtain rfl | rfl := hi
  · exact congrArg _ (Option.some.inj hm)
  · exact processFrame_of_ok (decodedUnit_hamProc_eq_some.mp hm)

theorem ruleOf_of_decodesCrc (hi : DecodesCrc i) (hm : decodedUnit i x = some m) :
    ruleOf i p x = crcDecRule p m := by
  obtain rfl | rfl := hi
  · exact congrArg _ (Option.some.inj hm)
  · exact processFrame_of_ok (decodedUnit_crcProc_eq_some.mp hm)

/-! ### The rows of the table -/

/-- The rows of R123 that a legal command can end in, each with its trigger and the effect it records. `delivered` is
the OK row of every command whose result is in OUT or on TX alone. -/
inductive OutcomeRow (p : Params) (i : Instr) (x : Bytes) : Effect → Prop
  | framing (e : FrameFailure) (hi : UnwrapsIN i) (h : unwrap x = .error e) : OutcomeRow p i x (finish e.status)
  | parity (m : Bytes) (hi : DecodesHamming i) (hm : decodedUnit i x = some m)
      (h : mismatchSet (bitsOf p.bitOrder m) ≠ []) : OutcomeRow p i x { finish .parityMismatch with
        OUT := (hamDecode p.bitOrder m).1, SYN := BitVec.ofNat 16 (mismatchSet (bitsOf p.bitOrder m)).sum }
  | checksum (m : Bytes) (hi : DecodesCrc i) (hm : decodedUnit i x = some m) (h : ChecksumRejects p.bitOrder m) :
      OutcomeRow p i x { finish .checksumMismatch with REM := packRem (crcDivide (bitsOf p.bitOrder m)) }
  | tested (hi : i = .frmIsComplete) : OutcomeRow p i x { finish .ok with FC := isFrameComplete x }
  | crcEncoded (hi : i = .crcEnc) : OutcomeRow p i x { finish .ok with
      OUT := crcEncode p.bitOrder x, REM := packRem (crcDivide (bitsOf p.bitOrder x)) }
  | delivered (out : Bytes) (frames : List Bytes) (htest : i ≠ .frmIsComplete) (henc : i ≠ .crcEnc) :
      OutcomeRow p i x { finish .ok with OUT := out, frames := frames }

theorem outcomeRow_of_decodesHamming (hi : DecodesHamming i) (hm : decodedUnit i x = some m) :
    OutcomeRow p i x (ruleOf i p x) := by
  rw [ruleOf_of_decodesHamming hi hm]
  by_cases h : mismatchSet (bitsOf p.bitOrder m) = []
  · rw [hamDecRule_of_no_mismatch h]
    obtain rfl | rfl := hi <;> exact .delivered _ [] nofun nofun
  · rw [hamDecRule_of_mismatch h]
    exact .parity m hi hm h

theorem outcomeRow_of_decodesCrc (hi : DecodesCrc i) (hm : decodedUnit i x = some m) :
    OutcomeRow p i x (ruleOf i p x) := by
  rw [ruleOf_of_decodesCrc hi hm]
  by_cases h : ChecksumRejects p.bitOrder m
  · rw [crcDecRule_of_checksumRejects h]
    exact .checksum m hi hm h
  · rw [crcDecRule_of_not_checksumRejects h]
    obtain rfl | rfl := hi <;> exact .delivered _ [] nofun nofun

theorem outcomeRow_of_unwrapsIN (hi : UnwrapsIN i) : OutcomeRow p i x (ruleOf i p x) := by
  cases h : unwrap x with
  | error e =>
    rw [ruleOf_of_unwrap_error hi h]
    exact .framing e hi h
  | ok m =>
    obtain rfl | rfl | rfl := hi
    · rw [ruleOf, frmUnwrapRule_of_ok h]
      exact .delivered m [] nofun nofun
    · exact outcomeRow_of_decodesHamming (.inr rfl) (decodedUnit_hamProc_eq_some.mpr h)
    · exact outcomeRow_of_decodesCrc (.inr rfl) (decodedUnit_crcProc_eq_some.mpr h)

/-- Every command ends in a row of the table. -/
theorem outcomeRow (p : Params) (i : Instr) (x : Bytes) : OutcomeRow p i x (ruleOf i p x) := by
  cases i with
  | frmIsComplete => exact .tested rfl
  | crcEnc => exact .crcEncoded rfl
  | frmWrap | hamEnc | hamSend | crcSend => exact .delivered _ _ nofun nofun
  | frmUnwrap => exact outcomeRow_of_unwrapsIN (.inl rfl)
  | hamProc => exact outcomeRow_of_unwrapsIN (.inr (.inl rfl))
  | crcProc => exact outcomeRow_of_unwrapsIN (.inr (.inr rfl))
  | hamDec => exact outcomeRow_of_decodesHamming (.inl rfl) rfl
  | crcDec => exact outcomeRow_of_decodesCrc (.inl rfl) rfl

/-! ### What a row says of STATUS -/

variable {eff : Effect}

theorem FrameFailure.status_injective : Function.Injective FrameFailure.status
  | .missingStartTag, .missingStartTag, _ => rfl
  | .missingStopTag, .missingStopTag, _ => rfl

theorem OutcomeRow.framing_of_STATUS (hrow : OutcomeRow p i x eff) (h : eff.STATUS = e.status) :
    UnwrapsIN i ∧ unwrap x = .error e := by
  cases hrow with
  | framing e' hi he => exact ⟨hi, FrameFailure.status_injective h ▸ he⟩
  | _ => cases e <;> cases h

theorem OutcomeRow.parity_of_STATUS (hrow : OutcomeRow p i x eff) (h : eff.STATUS = .parityMismatch) :
    DecodesHamming i ∧ ∃ m, decodedUnit i x = some m ∧ mismatchSet (bitsOf p.bitOrder m) ≠ [] := by
  cases hrow with
  | parity m hi hm hne => exact ⟨hi, m, hm, hne⟩
  | framing e => cases e <;> cases h
  | _ => cases h

theorem OutcomeRow.checksum_of_STATUS (hrow : OutcomeRow p i x eff) (h : eff.STATUS = .checksumMismatch) :
    DecodesCrc i ∧ ∃ m, decodedUnit i x = some m ∧ ChecksumRejects p.bitOrder m := by
  cases hrow with
  | checksum m hi hm hrej => exact ⟨hi, m, hm, hrej⟩
  | framing e => cases e <;> cases h
  | _ => cases h

theorem OutcomeRow.STATUS_ne_illegalCommand (hrow : OutcomeRow p i x eff) : eff.STATUS ≠ .illegalCommand := by
  cases hrow with
  | framing e => cases e <;> exact nofun
  | _ => exact nofun

/-- A legal command has completed with OK when it has none of the four failures (R123). -/
theorem Status.eq_ok_iff {st : Status} (hidle : st ≠ .idle) (hillegal : st ≠ .illegalCommand) :
    st = .ok ↔
      st ≠ .parityMismatch ∧ st ≠ .missingStartTag ∧ st ≠ .missingStopTag ∧ st ≠ .checksumMismatch := by
  cases st with
  | idle => exact absurd rfl hidle
  | illegalCommand => exact absurd rfl hillegal
  | _ => decide

theorem ruleOf_STATUS_eq_framing_iff :
    (ruleOf i p x).STATUS = e.status ↔ UnwrapsIN i ∧ unwrap x = .error e := by
  refine ⟨(outcomeRow p i x).framing_of_STATUS, fun ⟨hi, he⟩ => ?_⟩
  rw [ruleOf_of_unwrap_error hi he, finish_STATUS]

theorem ruleOf_STATUS_eq_parityMismatch_iff : (ruleOf i p x).STATUS = .parityMismatch ↔
    DecodesHamming i ∧ ∃ m, decodedUnit i x = some m ∧ mismatchSet (bitsOf p.bitOrder m) ≠ [] := by
  refine ⟨(outcomeRow p i x).parity_of_STATUS, fun ⟨hi, m, hm, hne⟩ => ?_⟩
  rw [ruleOf_of_decodesHamming hi hm, hamDecRule_of_mismatch hne, finish_STATUS]

theorem ruleOf_STATUS_eq_checksumMismatch_iff : (ruleOf i p x).STATUS = .checksumMismatch ↔
    DecodesCrc i ∧ ∃ m, decodedUnit i x = some m ∧ ChecksumRejects p.bitOrder m := by
  refine ⟨(outcomeRow p i x).checksum_of_STATUS, fun ⟨hi, m, hm, hrej⟩ => ?_⟩
  rw [ruleOf_of_decodesCrc hi hm, crcDecRule_of_checksumRejects hrej, finish_STATUS]

/-! ### The records of the rows -/

theorem ruleOf_of_STATUS_framing (h : (ruleOf i p x).STATUS = e.status) : ruleOf i p x = finish e.status := by
  obtain ⟨hi, he⟩ := ruleOf_STATUS_eq_framing_iff.mp h
  exact ruleOf_of_unwrap_error hi he

theorem ruleOf_of_STATUS_parityMismatch (h : (ruleOf i p x).STATUS = .parityMismatch)
    (hm : decodedUnit i x = some m) : ruleOf i p x = { finish .parityMismatch with
      OUT := (hamDecode p.bitOrder m).1, SYN := BitVec.ofNat 16 (mismatchSet (bitsOf p.bitOrder m)).sum } := by
  obtain ⟨hi, m', hm', hne⟩ := ruleOf_STATUS_eq_parityMismatch_iff.mp h
  obtain rfl : m' = m := Option.some.inj (hm'.symm.trans hm)
  rw [ruleOf_of_decodesHamming hi hm, hamDecRule_of_mismatch hne]

theorem ruleOf_of_STATUS_checksumMismatch (h : (ruleOf i p x).STATUS = .checksumMismatch)
    (hm : decodedUnit i x = some m) :
    ruleOf i p x = { finish .checksumMismatch with REM := packRem (crcDivide (bitsOf p.bitOrder m)) } := by
  obtain ⟨hi, m', hm', hrej⟩ := ruleOf_STATUS_eq_checksumMismatch_iff.mp h
  obtain rfl : m' = m := Option.some.inj (hm'.symm.trans hm)
  rw [ruleOf_of_decodesCrc hi hm, crcDecRule_of_checksumRejects hrej]

/-- The OK rows leave FC, SYN and REM at their defaults, except FRM_ISCOMPLETE's FC and CRC_ENC's REM. -/
theorem OutcomeRow.flags_of_ok (hrow : OutcomeRow p i x eff) (h : eff.STATUS = .ok) :
    eff.FC = (decide (i = .frmIsComplete) && isFrameComplete x) ∧ eff.SYN = 0#16 ∧
      eff.REM = if i = .crcEnc then packRem (crcDivide (bitsOf p.bitOrder x)) else 0#15 := by
  cases hrow with
  | framing e => cases e <;> cases h
  | parity | checksum => cases h
  | tested hi | crcEncoded hi =>
    subst hi
    exact ⟨rfl, rfl, rfl⟩
  | delivered out frames htest henc => simp [htest, henc]

theorem unwrap_of_ruleOf_STATUS_ok (h : (ruleOf .frmUnwrap p x).STATUS = .ok) :
    unwrap x = .ok (ruleOf .frmUnwrap p x).OUT := by
  cases hu : unwrap x with
  | ok m => rw [ruleOf, frmUnwrapRule_of_ok hu]
  | error e =>
    rw [ruleOf_of_unwrap_error (.inl rfl) hu] at h
    cases e <;> cases h

theorem ruleOf_OUT_of_decodesHamming (hi : DecodesHamming i) (hm : decodedUnit i x = some m) :
    (ruleOf i p x).OUT = (hamDecode p.bitOrder m).1 := by
  rw [ruleOf_of_decodesHamming hi hm]
  rfl

theorem ruleOf_OUT_of_decodesCrc (h : (ruleOf i p x).STATUS = .ok) (hi : DecodesCrc i)
    (hm : decodedUnit i x = some m) : (ruleOf i p x).OUT = m.take (m.length - crcCount p.bitOrder m) := by
  rw [ruleOf_of_decodesCrc hi hm] at h ⊢
  by_cases hrej : ChecksumRejects p.bitOrder m
  · rw [crcDecRule_of_checksumRejects hrej] at h
    cases h
  · rw [crcDecRule_of_not_checksumRejects hrej]

end Sys2Proof.Machine

namespace Sys2Proof.Proofs
open Sys2Proof.Machine

/-- Settles O16: a command applies the effect of its rule, which `outcomeRow` puts in a row of the table. -/
theorem commandsReportTheirOutcomes : Obligations.CommandsReportTheirOutcomes := by
  constructor
  · intro i s t h
    have hidle := exec_STATUS_ne_idle h
    obtain ⟨hSTATUS, hOUT, hFC, hSYN, hREM, -⟩ := exec_results h
    rw [hSTATUS] at hidle
    rw [hSTATUS, hOUT, hFC, hSYN, hREM]
    have hrow := outcomeRow s.params i s.IN
    refine ⟨hidle, hrow.STATUS_ne_illegalCommand, ruleOf_STATUS_eq_parityMismatch_iff, fun hst m hm => ?_,
      (ruleOf_STATUS_eq_framing_iff (e := .missingStartTag)).trans
        (and_congr_right' unwrap_eq_missingStartTag_iff_nil_or_cons),
      (ruleOf_STATUS_eq_framing_iff (e := .missingStopTag)).trans
        (and_congr_right' unwrap_eq_missingStopTag_iff_not_exists), fun hst => ?_,
      ruleOf_STATUS_eq_checksumMismatch_iff, fun hst m hm => ?_,
      Status.eq_ok_iff hidle hrow.STATUS_ne_illegalCommand, fun hst => ?_⟩
    · rw [ruleOf_of_STATUS_parityMismatch hst hm]
      exact ⟨rfl, rfl, rfl, rfl⟩
    · obtain ⟨e, he⟩ : ∃ e : FrameFailure, (ruleOf i s.params s.IN).STATUS = e.status :=
        hst.elim (⟨.missingStartTag, ·⟩) (⟨.missingStopTag, ·⟩)
      rw [ruleOf_of_STATUS_framing he]
      exact ⟨rfl, rfl, rfl, rfl⟩
    · rw [ruleOf_of_STATUS_checksumMismatch hst hm]
      exact ⟨rfl, rfl, rfl, rfl⟩
    · obtain ⟨hfc, hsyn, hrem⟩ := hrow.flags_of_ok hst
      refine ⟨hfc, hsyn, hrem, ?_, ?_, ?_, ?_, fun m hm =>
        ⟨(ruleOf_OUT_of_decodesHamming · hm), (ruleOf_OUT_of_decodesCrc hst · hm)⟩, ?_⟩
      · exact fun hwrap => hwrap ▸ rfl
      · rintro rfl
        exact unwrap_of_ruleOf_STATUS_ok hst
      · exact fun hham => hham ▸ rfl
      · exact fun hcrc => hcrc ▸ rfl
      · rintro (rfl | rfl | rfl) <;> rfl
  · intro s t w ha hw _ h
    rw [step_of_notMem_legalWords ha hw] at h
    cases h
    exact ⟨rfl, rfl, rfl, rfl, rfl⟩

end Sys2Proof.Proofs
end

section
/-! PROOFS. The actions without a meaning (R147), one lemma per fault of a shared operation, and the step on RESET
(R138, R139). -/

namespace Sys2Proof.Machine

variable {s : State}

/-! ### The faults of the host's operations (R31, R67) -/

theorem hostRead_of_error {r : HostReg} {e : Fault} (h : hostValue r s = .error e) : hostRead r s = .fault e := by
  unfold hostRead
  rw [h]

theorem hostInOut_of_idle (h : s.STATUS = .idle) : hostInOut s = .fault .resultNotWritten :=
  if_neg fun hw => State.resultsWritten_iff.mp hw h

theorem hostInTX_of_length_le {k : Nat} (h : s.TX.length ≤ k) : hostInTX k s = .fault .noSuchFrame := by
  unfold hostInTX
  rw [List.getElem?_eq_none h]

theorem hostInFlip_of_not_inWritten (h : s.inWritten = false) (j : Nat) : hostInFlip j s = .fault .inNotWritten :=
  if_pos h

theorem hostInFlip_of_lt (hw : s.inWritten = true) {j : Nat} (h : 8 * s.IN.length < j) :
    hostInFlip j s = .fault .flipOutOfRange := by
  unfold hostInFlip
  rw [if_neg (ne_false_of_eq_true hw), if_pos (.inr h)]

theorem writeCommandWord_of_not_inWritten {w : Byte} {i : Instr} (hi : decodeWord w = .ok i)
    (h : s.inWritten = false) : writeCommandWord w s = .fault .inNotWritten := by
  unfold writeCommandWord
  rw [hi]
  exact exec_of_not_inWritten i h

/-! ### The step on each host action, as its operation on the advanced state (R17) -/

theorem step_read {r : HostReg} (h : s.nextAction = some (.read r)) : step s = hostRead r s.advance := by
  unfold step
  rw [h]

theorem step_inOut_eq_hostInOut (h : s.nextAction = some .inOut) : step s = hostInOut s.advance := by
  unfold step
  rw [h]

theorem step_inTX_eq_hostInTX {k : Nat} (h : s.nextAction = some (.inTX k)) : step s = hostInTX k s.advance := by
  unfold step
  rw [h]

theorem step_inFlip {j : Nat} (h : s.nextAction = some (.inFlip j)) : step s = hostInFlip j s.advance := by
  unfold step
  rw [h]

theorem step_reset (h : s.nextAction = some .reset) : step s = .next s.advance.resetBlock := by
  unfold step
  rw [h]
  rfl

end Sys2Proof.Machine

namespace Sys2Proof.Proofs
open Sys2Proof.Machine

/-- Settles O8: a step is the operation of its action on the advanced state, whose registers are those of `s`, and
there that operation has no meaning. -/
theorem meaninglessActionsFault : Obligations.MeaninglessActionsFault := by
  intro s
  refine ⟨fun r hr ha hidle => ?read, fun w i ha hi hw => ?command, fun ha hidle => ?inOut, fun k ha hk => ?inTX,
    fun j ha hw => ?flipUnwritten, fun j ha hw hj => ?flipBeyond⟩
  case read =>
    rw [step_read ha]
    exact hostRead_of_error (hostValue_result_of_idle hidle hr)
  case command =>
    rw [step_cmd ha]
    exact writeCommandWord_of_not_inWritten hi hw
  case inOut =>
    rw [step_inOut_eq_hostInOut ha]
    exact hostInOut_of_idle hidle
  case inTX =>
    rw [step_inTX_eq_hostInTX ha]
    exact hostInTX_of_length_le hk
  case flipUnwritten =>
    rw [step_inFlip ha]
    exact hostInFlip_of_not_inWritten (s := s.advance) hw j
  case flipBeyond =>
    rw [step_inFlip ha]
    exact hostInFlip_of_lt (s := s.advance) hw hj

/-- Settles O11: the next state is IDLE with IN unwritten, which decides the reads and the commands. -/
theorem resetDirectiveClearsBlock : Obligations.ResetDirectiveClearsBlock := by
  intro s ha
  have hidle : s.advance.resetBlock.STATUS = .idle := s.advance.resetBlock_STATUS
  have hunwritten : s.advance.resetBlock.inWritten = false := s.advance.resetBlock_inWritten
  exact ⟨s.advance.resetBlock, step_reset ha, hidle, s.advance.resetBlock_TX, hunwritten,
    fun _ hr => hostValue_result_of_idle hidle hr, fun i => exec_of_not_inWritten i hunwritten,
    s.advance.resetBlock_params, s.advance.resetBlock_program, s.advance.resetBlock_pos⟩

end Sys2Proof.Proofs
end

section
/-! PROOFS. Programs of command bytes (R60): the decoder takes one byte after the other, so a program decodes exactly
when its bytes are the encoded commands. Which check rejects a word that is no command (R54, R55). -/

namespace Sys2Proof

variable {w : Byte} {rest bytes : Bytes} {prog : List Instr}

/-! ### Programs (R60) -/

theorem decodeAll_cons_eq_ok_iff : decodeAll (w :: rest) = .ok prog ↔
    ∃ i is, decodeWord w = .ok i ∧ decodeAll rest = .ok is ∧ prog = i :: is := by
  rw [decodeAll]
  cases decodeWord w with
  | error e => simp
  | ok i => cases decodeAll rest <;> simp [Except.map, eq_comm]

/-- A byte sequence is decoded exactly to the program that encodes to it. -/
theorem decodeAll_eq_ok_iff : decodeAll bytes = .ok prog ↔ bytes = prog.map encode := by
  induction bytes generalizing prog with
  | nil => cases prog <;> simp [decodeAll]
  | cons w rest ih =>
    rw [decodeAll_cons_eq_ok_iff]
    simp only [decodeWord_eq_ok_iff, ih]
    constructor
    · rintro ⟨i, is, rfl, rfl, rfl⟩
      rfl
    · intro h
      obtain ⟨i, is, rfl, hw, hrest⟩ := List.map_eq_cons_iff.mp h.symm
      exact ⟨i, is, hw.symm, hrest.symm, rfl⟩

theorem decodeTableWord_encode (i : Instr) : decodeTableWord 8 (encode i).toNat = some i := by
  simp [decodeTableWord, (encode i).isLt]

/-! ### The checks (R54, R55) -/

theorem decodeWord_of_checkWord {e : IllegalWord} (h : checkWord w = some e) : decodeWord w = .error e := by
  rw [decodeWord, h]

/-- RES is not 0 from 0x10 on. -/
theorem checkWord_of_le_toNat (h : 0x10 ≤ w.toNat) : checkWord w = some .reservedBits :=
  if_pos (by rw [resField]; omega)

end Sys2Proof

namespace Sys2Proof.Proofs
open Sys2Proof.Machine

/-- Settles O4, by induction on the command bytes. -/
theorem programDecodeEncodeAgree : Obligations.ProgramDecodeEncodeAgree :=
  ⟨fun _ => decodeAll_eq_ok_iff.mpr rfl, fun _ _ => decodeAll_eq_ok_iff.mp⟩

/-- Settles O3: a word decodes to a command exactly when it is the command's encoded word. -/
theorem decodeEncodeAgree : Obligations.DecodeEncodeAgree :=
  ⟨fun i => ⟨decodeWord_encode i, decodeTableWord_encode i⟩, fun _ _ => decodeWord_eq_ok_iff.mp⟩

/-- Settles O2: each word's first failing check is the one named. -/
theorem illegalWordsRejectedByName : Obligations.IllegalWordsRejectedByName := by
  refine fun w => ⟨fun h => decodeWord_of_checkWord (checkWord_of_le_toNat h), ?_, ?_⟩
  · rintro (rfl | rfl) <;> exact decodeWord_of_checkWord (by decide)
  · rintro (rfl | rfl | rfl) <;> exact decodeWord_of_checkWord (by decide)

end Sys2Proof.Proofs
end

section
/-! PROOFS. The registers as bits: STATUS (R22), REM (R26), and SYN, which holds the syndrome of every codeword within
R7's bounds whole and so lists its mismatch set (R8, R25). -/

namespace Sys2Proof.Machine

variable {c : BitBuffer}

/-! ### REM (R26) -/

theorem getLsbD_packRem (r : BitBuffer) {j : Nat} (hj : j ≤ 14) : (packRem r).getLsbD (14 - j) = bbRead r j := by
  have hinj : Set.InjOn (14 - ·) (Finset.range 15 : Set Nat) := by
    intro i hi k hk hik
    simp only [Finset.coe_range, Set.mem_Iio] at hi hk hik
    omega
  have hlt : 14 - j < 15 := by omega
  rw [packRem, BitVec.getLsbD_ofNat, decide_eq_true hlt, Bool.true_and]
  exact testBit_weightedSum hinj (bbRead r) (Nat.lt_succ_of_le hj)

/-! ### SYN (R25) -/

/-- The bits of a number below `2^k` lie below `k`. -/
theorem filter_testBit_range_eq_bitIndices {n k : Nat} (h : n < 2 ^ k) :
    (List.range k).filter n.testBit = n.bitIndices := by
  refine List.SortedLT.eq_of_mem_iff (List.pairwise_lt_range.filter _).sortedLT Nat.bitIndices_sorted fun t => ?_
  rw [List.mem_filter, List.mem_range, Nat.mem_bitIndices, and_iff_right_iff_imp]
  intro ht
  exact (Nat.pow_lt_pow_iff_right (by decide)).mp (Nat.lt_of_le_of_lt (Nat.ge_two_pow_of_testBit ht) h)

theorem toNat_packSyn {n : Nat} (h : n < 2 ^ 16) : (packSyn n).toNat = n :=
  (BitVec.toNat_ofNat n 16).trans (Nat.mod_eq_of_lt h)

theorem packSyn_eq_zero_iff {n : Nat} (h : n < 2 ^ 16) : packSyn n = 0#16 ↔ n = 0 := by
  rw [← BitVec.toNat_inj, toNat_packSyn h]
  rfl

/-- SYN lists the powers of two of a number that fits in it. -/
theorem synPositions_packSyn {n : Nat} (h : n < 2 ^ 16) : synPositions (packSyn n) = n.bitIndices.map (2 ^ ·) := by
  have hbits : (fun t => (packSyn n).getLsbD t) = n.testBit :=
    funext fun t => by rw [← BitVec.testBit_toNat, toNat_packSyn h]
  rw [synPositions, hbits, filter_testBit_range_eq_bitIndices h]

/-- The syndrome of a codeword of BUF_CAP's largest length fits in SYN (R8). -/
theorem syndrome_lt (h : c.length ≤ 8 * 4095) : syndrome c < 2 ^ 16 := by
  rw [syndrome_eq_positionXor]
  refine (positionXor_lt c).trans_le (Nat.pow_le_pow_right Nat.two_pos (Nat.size_le.mpr ?_))
  omega

theorem packSyn_syndrome_eq_zero_iff (h : c.length ≤ 8 * 4095) :
    packSyn (syndrome c) = 0#16 ↔ mismatchSet c = [] :=
  (packSyn_eq_zero_iff (syndrome_lt h)).trans syndrome_eq_zero_iff

end Sys2Proof.Machine

namespace Sys2Proof.Proofs
open Sys2Proof.Machine

/-- Settles O21: distinct weights keep the bits of the remainder apart. -/
theorem remPacking : Obligations.RemPacking := fun r _ hj => getLsbD_packRem r hj

/-- Settles O22: the syndrome is the XOR of set positions below 2^16, and SYN and the mismatch set both list its
powers of two. -/
theorem synListsMismatchSet : Obligations.SynListsMismatchSet := by
  intro c h
  have hlt := syndrome_lt h
  refine ⟨toNat_packSyn hlt, ?_, packSyn_syndrome_eq_zero_iff h⟩
  rw [synPositions_packSyn hlt, syndrome_eq_positionXor, mismatchSet_eq_map_bitIndices]

/-- Settles O20, by the cases of STATUS. -/
theorem statusCodes : Obligations.StatusCodes :=
  ⟨rfl, rfl, rfl, rfl, rfl, rfl, rfl, fun st => by cases st <;> decide⟩

end Sys2Proof.Proofs
end

section
/-! PROOFS. The layout of a codeword (R63, R84), and its syndrome as the XOR the spec's flip argument reads it as
(R95). -/

namespace Sys2Proof.Machine

/-- Behind a first bit at position `i`, the list of set positions is that of the rest. -/
theorem filter_bbRead_cons (b : Bool) (c : BitBuffer) (i n : Nat) :
    (List.range' (i + 1) n).filter (fun j => bbRead (b :: c) (j - i)) =
      (List.range' (i + 1) n).filter fun j => bbRead c (j - (i + 1)) := by
  refine List.filter_congr fun j hj => ?_
  obtain ⟨k, rfl⟩ := Nat.exists_eq_add_of_le (List.mem_range'_1.mp hj).1
  rw [Nat.add_sub_cancel_left, Nat.add_assoc, Nat.add_sub_cancel_left, Nat.add_comm 1 k, bbRead_cons_succ]

/-- XORing the set positions into `a` one after the other XORs in `positionXorFrom`. -/
theorem foldl_xor_set_positions (c : BitBuffer) (i a : Nat) :
    ((List.range' i c.length).filter fun j => bbRead c (j - i)).foldl (· ^^^ ·) a = a ^^^ positionXorFrom i c := by
  induction c generalizing i a with
  | nil => exact (Nat.xor_zero a).symm
  | cons b c ih =>
    rw [List.length_cons, List.range'_succ, List.filter_cons, filter_bbRead_cons, Nat.sub_self, bbRead_cons_zero,
      positionXorFrom]
    cases b with
    | false => simpa using ih (i + 1) a
    | true => rw [if_pos rfl, if_pos rfl, List.foldl_cons, ih, Nat.xor_assoc]

end Sys2Proof.Machine

namespace Sys2Proof.Proofs
open Sys2Proof.Machine

/-- Settles O34: the parity bits are written inside the placed codeword, at positions strip leaves out. -/
theorem hamCodewordLayout : Obligations.HamCodewordLayout :=
  fun d => ⟨hamEncodeBits_length d, strip_hamEncodeBits d⟩

/-- Settles O38: the syndrome is `positionXor`, which the fold computes bit by bit. -/
theorem syndromeIsXorOfSetPositions : Obligations.SyndromeIsXorOfSetPositions := by
  intro c
  rw [foldl_xor_set_positions, Nat.zero_xor, syndrome_eq_positionXor, positionXor]

end Sys2Proof.Proofs
end

section
/-! PROOFS. The frame of a command: it writes the result registers, and TX only by the frames of a send (R20, R27). -/

namespace Sys2Proof.Machine

variable {i : Instr} {p : Params} {x : Bytes} {s t : State}

theorem crcDecRule_frames (p : Params) (y : Bytes) : (crcDecRule p y).frames = [] := by
  unfold crcDecRule
  split <;> rfl

theorem frmUnwrapRule_frames (p : Params) (f : Bytes) : (frmUnwrapRule p f).frames = [] := by
  unfold frmUnwrapRule
  split <;> rfl

theorem processFrame_frames (codec : Codec) (p : Params) (buf : Bytes) : (processFrame codec p buf).frames = [] := by
  unfold processFrame
  split
  · rfl
  · cases codec with
    | hamming => rfl
    | crc => exact crcDecRule_frames p _

/-- Only the send commands hand frames to `transmit` (R27). -/
theorem ruleOf_frames_eq_nil (hham : i ≠ .hamSend) (hcrc : i ≠ .crcSend) : (ruleOf i p x).frames = [] := by
  cases i with
  | hamSend | crcSend => contradiction
  | frmWrap | frmIsComplete | hamEnc | hamDec | crcEnc => rfl
  | frmUnwrap => exact frmUnwrapRule_frames p x
  | crcDec => exact crcDecRule_frames p x
  | hamProc | crcProc => exact processFrame_frames _ p x

end Sys2Proof.Machine

namespace Sys2Proof.Proofs
open Sys2Proof.Machine

/-- Settles O15: a command applies the effect of its rule, which has no frames unless the command is a send. -/
theorem commandFrame : Obligations.CommandFrame := by
  intro i s t h
  obtain ⟨-, -, rfl⟩ := exec_eq_next.mp h
  refine ⟨rfl, rfl, rfl, rfl, rfl, rfl, fun hham hcrc => ?_, List.prefix_append ..⟩
  rw [State.applyEffect_TX, ruleOf_frames_eq_nil hham hcrc, List.append_nil]

end Sys2Proof.Proofs
end

section
/-! PROOFS. The actions that go on: a legal command word (R53), a directive that writes IN (R67), a host read (R43), and
the position, which every action moves on by one until the run has ended (R17, R149). -/

namespace Sys2Proof.Machine

variable {s t : State}

theorem hostWriteIN_of_le {x : Bytes} (h : x.length ≤ s.params.bufCap) : hostWriteIN x s = .next (s.writeIN x) :=
  if_pos h

theorem hostInFlip_of_mem (hw : s.inWritten = true) {j : Nat} (hj : 1 ≤ j) (hle : j ≤ 8 * s.IN.length) :
    hostInFlip j s = hostWriteIN (flipStreamBit s.params.bitOrder s.IN (j - 1)) s := by
  unfold hostInFlip
  rw [if_neg (ne_false_of_eq_true hw), if_neg (by omega)]

/-- Where IN was written already, writing it changes its content alone. -/
theorem State.writeIN_of_inWritten (hw : s.inWritten = true) (x : Bytes) : s.writeIN x = { s with IN := x } := by
  rw [State.writeIN, ← hw]

theorem hostRead_of_ok {r : HostReg} {v : HostValue} (h : hostValue r s = .ok v) : hostRead r s = .next s := by
  unfold hostRead
  rw [h]

/-- The position is none of the registers a read answers. -/
theorem hostValue_advance (r : HostReg) (s : State) : hostValue r s.advance = hostValue r s := by
  cases r <;> rfl

theorem writeCommandWord_of_decodeWord {w : Byte} {i : Instr} (hi : decodeWord w = .ok i) (s : State) :
    writeCommandWord w s = exec i (s.writeCMD w) := by
  unfold writeCommandWord
  rw [hi]

/-! ### The position (R17) -/

theorem State.nextAction_eq_none_iff : s.nextAction = none ↔ s.program.length ≤ s.pos := List.getElem?_eq_none_iff

theorem State.pos_lt_of_nextAction {a : HostAction} (h : s.nextAction = some a) : s.pos < s.program.length :=
  (List.getElem?_eq_some_iff.mp h).1

theorem step_of_nextAction_eq_none (h : s.nextAction = none) : step s = .next s := by
  unfold step
  rw [h]

/-- A written command word leaves the action list and the position to the host (R17). -/
theorem writeCommandWord_position {w : Byte} (h : writeCommandWord w s = .next t) :
    t.program = s.program ∧ t.pos = s.pos := by
  obtain ⟨i, -, -, -, rfl⟩ | ⟨e, -, rfl⟩ := writeCommandWord_eq_next h
  · exact ⟨rfl, rfl⟩
  · exact ⟨rfl, rfl⟩

theorem step_position (h : step s = .next t) :
    t.program = s.program ∧ (s.pos < s.program.length → t.pos = s.pos + 1) := by
  obtain ⟨hnone, rfl⟩ | ⟨w, -, hcmd⟩ | ⟨x, -, rfl, -⟩ | ⟨-, rfl⟩ | ⟨r, v, -, -, rfl⟩ := step_cases h
  · exact ⟨rfl, fun hlt => absurd (State.nextAction_eq_none_iff.mp hnone) (Nat.not_le.mpr hlt)⟩
  · obtain ⟨hprogram, hpos⟩ := writeCommandWord_position hcmd
    exact ⟨hprogram, fun _ => hpos⟩
  · exact ⟨rfl, fun _ => rfl⟩
  · exact ⟨rfl, fun _ => rfl⟩
  · exact ⟨rfl, fun _ => rfl⟩

end Sys2Proof.Machine

namespace Sys2Proof.Proofs
open Sys2Proof.Machine

/-- Settles O5: the word's command runs on the advanced state with CMD written. -/
theorem stepRunsDecodedCommand : Obligations.StepRunsDecodedCommand :=
  fun s _ _ ha hi => (step_cmd ha).trans (writeCommandWord_of_decodeWord hi s.advance)

/-- Settles O7: no command runs, so nothing asks whether IN was written. -/
theorem illegalWordNeedsNoOperand : Obligations.IllegalWordNeedsNoOperand :=
  fun _ _ ha hw _ => step_of_notMem_legalWords ha hw

/-- Settles O9: each directive is a write of the sequence it names, and a flip keeps the length of IN. -/
theorem directivesWriteIN : Obligations.DirectivesWriteIN := by
  refine fun s => ⟨fun x ha hle => (step_inBytes ha).trans (hostWriteIN_of_le hle),
    fun ha hst hle => (step_inOut ha hst).trans (hostWriteIN_of_le hle),
    fun k f ha hf hle => (step_inTX ha hf).trans (hostWriteIN_of_le hle), fun j ha hw hj hjle hle => ?_⟩
  have hflip := flipStreamBit_length s.params.bitOrder s.IN (t := j - 1) (by omega)
  have hstep : step s = hostWriteIN (flipStreamBit s.params.bitOrder s.IN (j - 1)) s.advance :=
    (step_inFlip ha).trans (hostInFlip_of_mem (s := s.advance) hw hj hjle)
  rw [hstep, hostWriteIN_of_le (s := s.advance) (hflip.trans_le hle),
    State.writeIN_of_inWritten (s := s.advance) hw]
  rfl

/-- Settles O10: a read answers whenever the register has a value, and then only the position moves. -/
theorem hostReadsHaveNoSideEffect : Obligations.HostReadsHaveNoSideEffect :=
  fun s => ⟨rfl, fun hw => if_pos hw, hostValue_results_of_ne_idle,
    fun r _ ha hv => (step_read ha).trans (hostRead_of_ok ((hostValue_advance r s).trans hv))⟩

/-- Settles O13, by the cases of a step; behind the last action there is none to do. -/
theorem runEndsAfterLastAction : Obligations.RunEndsAfterLastAction :=
  ⟨fun _ _ => step_position, fun _ h => step_of_nextAction_eq_none (State.nextAction_eq_none_iff.mpr h)⟩

end Sys2Proof.Proofs
end

section
/-! PROOFS. The invariant of the block. Each operation on the state keeps it: the host's by what they write, and a
command's commit because its effect is a row of the outcome table (R123) whose frames are wrapped units (R117). -/

namespace Sys2Proof.Machine

variable {s t : State} {p : Params} {i : Instr} {x : Bytes} {e : Effect}

/-- The invariant's clauses. -/
theorem State.inv_iff : s.inv = true ↔ s.capacityOk = true ∧ s.outcomeOk = true ∧ s.remOk = true ∧
    s.TX.all frameOk = true ∧ (s.inWritten || s.IN == []) = true ∧ s.pos ≤ s.program.length := by
  simp only [State.inv, Bool.and_eq_true, decide_eq_true_eq, and_assoc]

theorem State.capacityOk_iff : s.capacityOk = true ↔
    s.params.wf = true ∧ s.IN.length ≤ s.params.bufCap ∧ s.OUT.length ≤ s.params.bufCap := by
  simp only [State.capacityOk, Bool.and_eq_true, decide_eq_true_eq, and_assoc]

theorem State.remOk_iff : s.remOk = true ↔ s.REM.getLsbD 0 = false ∧ s.REM.getLsbD 1 = false := by
  simp only [State.remOk, Bool.and_eq_true, Bool.not_eq_true']

theorem State.remOk_of_REM_eq_zero (h : s.REM = 0#15) : s.remOk = true := State.remOk_iff.mpr (h ▸ ⟨rfl, rfl⟩)

/-- IN never outgrows R7's bound on BUF_CAP. -/
theorem State.IN_length_le_of_inv (h : s.inv = true) : s.IN.length ≤ 4095 := by
  obtain ⟨hcap, -⟩ := State.inv_iff.mp h
  obtain ⟨hwf, hIN, -⟩ := State.capacityOk_iff.mp hcap
  obtain ⟨-, hmax⟩ := of_decide_eq_true hwf
  exact hIN.trans hmax

/-! ### The host's operations -/

theorem State.inv_advance (h : s.inv = true) {a : HostAction} (ha : s.nextAction = some a) :
    s.advance.inv = true := by
  obtain ⟨hcap, hout, hrem, hTX, hIN, -⟩ := State.inv_iff.mp h
  exact State.inv_iff.mpr ⟨hcap, hout, hrem, hTX, hIN, State.pos_lt_of_nextAction ha⟩

theorem State.inv_writeIN (h : s.inv = true) (hx : x.length ≤ s.params.bufCap) : (s.writeIN x).inv = true := by
  obtain ⟨hcap, hout, hrem, hTX, -, hpos⟩ := State.inv_iff.mp h
  obtain ⟨hwf, -, hOUT⟩ := State.capacityOk_iff.mp hcap
  exact State.inv_iff.mpr ⟨State.capacityOk_iff.mpr ⟨hwf, hx, hOUT⟩, hout, hrem, hTX, rfl, hpos⟩

/-- A block after reset meets the invariant wherever the position is in the action list. -/
theorem State.inv_resetWith (hwf : p.wf = true) {program : List HostAction} {pos : Nat}
    (hpos : pos ≤ program.length) : ({ State.resetWith p with program := program, pos := pos } : State).inv = true :=
  State.inv_iff.mpr ⟨State.capacityOk_iff.mpr ⟨hwf, Nat.zero_le _, Nat.zero_le _⟩, rfl,
    State.remOk_of_REM_eq_zero rfl, rfl, rfl, hpos⟩

theorem State.inv_resetBlock (h : s.inv = true) : s.resetBlock.inv = true := by
  obtain ⟨hcap, -, -, -, -, hpos⟩ := State.inv_iff.mp h
  obtain ⟨hwf, -⟩ := State.capacityOk_iff.mp hcap
  exact State.inv_resetWith hwf hpos

/-- CMD is in no clause. -/
theorem State.inv_writeCMD (s : State) (w : Byte) : (s.writeCMD w).inv = s.inv := rfl

/-- What an effect must meet for its commit to keep the invariant. -/
theorem State.inv_applyEffect (h : s.inv = true) (hOUT : e.OUT.length ≤ s.params.bufCap)
    (hout : (s.applyEffect e).outcomeOk = true) (hrem : (s.applyEffect e).remOk = true)
    (hframes : e.frames.all frameOk = true) : (s.applyEffect e).inv = true := by
  obtain ⟨hcap, -, -, hTX, hIN, hpos⟩ := State.inv_iff.mp h
  obtain ⟨hwf, hINle, -⟩ := State.capacityOk_iff.mp hcap
  refine State.inv_iff.mpr ⟨State.capacityOk_iff.mpr ⟨hwf, hINle, hOUT⟩, hout, hrem, ?_, hIN, hpos⟩
  rw [State.applyEffect_TX, List.all_append, hTX, hframes, Bool.and_self]

/-! ### The frames of a send (R61, R117) -/

/-- The wrap of a unit of at most 10 bytes has at most 22, as escaping at most doubles it (R61). -/
theorem frameOk_wrap {u : Bytes} (hu : u.length ≤ 10) : frameOk (wrap u) = true := by
  have hlen := wrap_length_le u
  have hle : (wrap u).length ≤ 22 := by omega
  simp [frameOk, unwrap_wrap, hu, hle]

theorem IsChunking.length_le_of_mem {us : List Bytes} (h : IsChunking x us) {u : Bytes} (hu : u ∈ us) :
    u.length ≤ 8 := by
  induction h with
  | short hle => exact (List.mem_singleton.mp hu) ▸ hle
  | long _ _ ih =>
    rcases List.mem_cons.mp hu with rfl | hu
    · exact List.length_take_le ..
    · exact ih hu

theorem encodeUnit_length_le (codec : Codec) (o : BitOrder) {u : Bytes} (hu : u.length ≤ 8) :
    (encodeUnit codec o u).length ≤ 10 := by
  have hunit : (encodeUnit codec o u).length ≤ u.length + 2 := by
    cases codec with
    | hamming => exact hamEncode_length_le o (by omega)
    | crc => exact crcEncode_length_le o u
  omega

theorem sendFrames_all_frameOk (codec : Codec) (o : BitOrder) (x : Bytes) :
    (sendFrames codec o x).all frameOk = true := by
  simp only [sendFrames, List.all_map, List.all_eq_true, Function.comp_apply]
  exact fun u hu => frameOk_wrap (encodeUnit_length_le codec o ((isChunking_chunks x).length_le_of_mem hu))

theorem ruleOf_frames_all_frameOk (i : Instr) (p : Params) (x : Bytes) :
    (ruleOf i p x).frames.all frameOk = true := by
  by_cases hham : i = .hamSend
  · exact hham ▸ sendFrames_all_frameOk .hamming p.bitOrder x
  by_cases hcrc : i = .crcSend
  · exact hcrc ▸ sendFrames_all_frameOk .crc p.bitOrder x
  rw [ruleOf_frames_eq_nil hham hcrc, List.all_nil]

/-! ### The result registers of each row of the outcome table (R123) -/

theorem decodedUnit_length_le {m : Bytes} (hm : decodedUnit i x = some m) : m.length ≤ x.length := by
  cases i with
  | hamDec | crcDec => exact (congrArg List.length (Option.some.inj hm)).ge
  | hamProc => exact unwrap_length_le (decodedUnit_hamProc_eq_some.mp hm)
  | crcProc => exact unwrap_length_le (decodedUnit_crcProc_eq_some.mp hm)
  | frmWrap | frmIsComplete | frmUnwrap | hamEnc | hamSend | crcEnc | crcSend => cases hm

/-- A non-empty mismatch set leaves a SYN that is not 0, as the syndrome of an IN within BUF_CAP fits in it (R8). -/
theorem OutcomeRow.outcomeOk (hrow : OutcomeRow p i x e) (hx : x.length ≤ 4095) (s : State) :
    (s.applyEffect e).outcomeOk = true := by
  cases hrow with
  | framing e => cases e <;> rfl
  | parity m _ hm hne =>
    have hlen : (bitsOf p.bitOrder m).length ≤ 8 * 4095 := by
      rw [bitsOf_length]
      exact Nat.mul_le_mul_left 8 ((decodedUnit_length_le hm).trans hx)
    have hsyn : BitVec.ofNat 16 (mismatchSet (bitsOf p.bitOrder m)).sum ≠ 0#16 :=
      mt (packSyn_syndrome_eq_zero_iff hlen).mp hne
    simp [State.outcomeOk, hsyn]
  | checksum | crcEncoded | delivered => rfl
  | tested => simp [State.outcomeOk]

/-- The two low bits of a packed remainder are r[13] and r[14] (R26, R98). -/
theorem packRem_crcDivide_low_bits (a : BitBuffer) :
    (packRem (crcDivide a)).getLsbD 0 = false ∧ (packRem (crcDivide a)).getLsbD 1 = false :=
  ⟨(getLsbD_packRem _ (j := 14) (by decide)).trans (bbRead_crcDivide_eq_false a (by decide)),
    (getLsbD_packRem _ (j := 13) (by decide)).trans (bbRead_crcDivide_eq_false a (by decide))⟩

theorem OutcomeRow.remOk (hrow : OutcomeRow p i x e) (s : State) : (s.applyEffect e).remOk = true := by
  cases hrow with
  | checksum | crcEncoded => exact State.remOk_iff.mpr (packRem_crcDivide_low_bits _)
  | framing | parity | tested | delivered => exact State.remOk_of_REM_eq_zero rfl

/-! ### The commands and the step -/

theorem State.inv_applyEffect_ruleOf (h : s.inv = true)
    (hOUT : (ruleOf i s.params s.IN).OUT.length ≤ s.params.bufCap) :
    (s.applyEffect (ruleOf i s.params s.IN)).inv = true := by
  have hrow := outcomeRow s.params i s.IN
  exact State.inv_applyEffect h hOUT (hrow.outcomeOk (State.IN_length_le_of_inv h) s) (hrow.remOk s)
    (ruleOf_frames_all_frameOk i s.params s.IN)

theorem writeCommandWord_keeps_inv {w : Byte} (h : s.inv = true) (hstep : writeCommandWord w s = .next t) :
    t.inv = true := by
  rw [← State.inv_writeCMD s w] at h
  obtain ⟨i, -, -, hOUT, rfl⟩ | ⟨_, -, rfl⟩ := writeCommandWord_eq_next hstep
  · exact State.inv_applyEffect_ruleOf h hOUT
  · exact State.inv_applyEffect h (Nat.zero_le _) rfl (State.remOk_of_REM_eq_zero rfl) rfl

end Sys2Proof.Machine

namespace Sys2Proof.Proofs
open Sys2Proof.Machine

/-- Settles O18: an action first moves the position on, and then its operation keeps the invariant. -/
theorem stepKeepsInvariant : Obligations.StepKeepsInvariant := by
  intro s t h hstep
  obtain ⟨-, rfl⟩ | ⟨w, ha, hcmd⟩ | ⟨x, hx, rfl, hdirective⟩ | ⟨ha, rfl⟩ | ⟨r, v, ha, -, rfl⟩ :=
    step_cases hstep
  · exact h
  · exact writeCommandWord_keeps_inv (State.inv_advance h ha) hcmd
  · obtain ⟨a, ha⟩ : ∃ a, s.nextAction = some a := by
      obtain ha | ⟨ha, -⟩ | ⟨k, ha, -⟩ | ⟨j, ha, -⟩ := hdirective <;> exact ⟨_, ha⟩
    exact State.inv_writeIN (State.inv_advance h ha) hx
  · exact State.inv_resetBlock (State.inv_advance h ha)
  · exact State.inv_advance h ha

/-- Settles O19: the placeholders are those IDLE asks for, and the position is 0. -/
theorem resetMeetsInvariant : Obligations.ResetMeetsInvariant :=
  fun _ _ hwf => State.inv_resetWith hwf (Nat.zero_le _)

end Sys2Proof.Proofs
end
